-- ==== Sys2Proof/Word.lean ====
section
/-! DEFINITION. The words the block handles: bytes, frames, binary64 patterns and the coefficient registers' widths. -/

namespace Sys2Proof

/-- A byte (R9). Bit 0 is the least significant bit of every value. -/
abbrev Byte := BitVec 8

/-- A command frame F[0], F[1], … (R81) or a response frame S[0], S[1], … (R90), lowest index first. -/
abbrev Frame := List Byte

/-- An IEEE 754 binary64 value (R180), held as its 64-bit pattern: this is `bits(x)` of R192. -/
structure F64 where
  bits : BitVec 64
  deriving DecidableEq, Repr, Inhabited

/-- The type of the parameter R193 names: a binary64 implementation, its operations `+. -. *. /.`, the conversions F and `trunc`
(to the width of `T_FINE`) and the comparisons `==. <. >.`. What R180 to R187 say of one is `Binary64.Rules` (Safety). -/
structure Binary64 where
  add : F64 → F64 → F64
  sub : F64 → F64 → F64
  mul : F64 → F64 → F64
  div : F64 → F64 → F64
  ofInt : Int → F64
  trunc : F64 → BitVec 32
  eq : F64 → F64 → Bool
  lt : F64 → F64 → Bool
  gt : F64 → F64 → Bool

/-- The three temperature coefficients (R21, k = 0..2): T1 is u16, T2 and T3 are s16. -/
structure TempCoeffs where
  t1 : BitVec 16
  t2 : BitVec 16
  t3 : BitVec 16
  deriving DecidableEq, Repr, Inhabited

/-- The nine pressure coefficients (R21, k = 3..11): P1 is u16, P2 to P9 are s16. -/
structure PressCoeffs where
  p1 : BitVec 16
  p2 : BitVec 16
  p3 : BitVec 16
  p4 : BitVec 16
  p5 : BitVec 16
  p6 : BitVec 16
  p7 : BitVec 16
  p8 : BitVec 16
  p9 : BitVec 16
  deriving DecidableEq, Repr, Inhabited

/-- The six humidity coefficients (R21, k = 12..17): H1 and H3 are u8, H2 is s16, H4 and H5 are s12, H6 is s8. -/
structure HumCoeffs where
  h1 : BitVec 8
  h2 : BitVec 16
  h3 : BitVec 8
  h4 : BitVec 12
  h5 : BitVec 12
  h6 : BitVec 8
  deriving DecidableEq, Repr, Inhabited

/-- The calibration register file `CAL[0..17]` (R21) in the spec's three groups. Each register has the
stored width of R21's table, so every value is in the range that table gives; a signed register is a
two's-complement pattern (R10), read as an integer with `toInt`. -/
structure CalibrationSet where
  temp  : TempCoeffs
  press : PressCoeffs
  hum   : HumCoeffs
  deriving DecidableEq, Repr, Inhabited

end Sys2Proof
end

