-- ==== Sys2Proof/Config.lean ====
section
/-! DEFINITION. The parameters of R8 at their defaults, the host's bus addresses, and the free values of what the spec leaves open. -/

namespace Sys2Proof.Config

/-- `EXPECTED_ID` (R8, D18), at the spec's default. DESIGN CHOICE of the default: notes/assumptions/5.md. -/
def expectedId : Byte := 0x60#8

/-- `NAN_BITS` (R8, R188, D19), at the spec's default: a positive quiet NaN with zero payload.
DESIGN CHOICE of the default: notes/assumptions/6.md. -/
def nanBits : F64 := ⟨0x7FF8000000000000#64⟩

/-- `TFINE_WIDTH` (R8, R25), at the spec's default: notes/assumptions/12.md. -/
abbrev tFineWidth : Nat := 32

/-- `ID_REG_ADDR` (R8): the bus address the HOST reads the identity byte from; no rule of the block uses it. -/
def idRegAddr : Byte := 0xD0#8

/-- `CAL_A_BASE` (R8): the bus address of byte A[0]; byte A[i] is at this address plus i (R60). A host matter. -/
def calABase : Byte := 0x88#8

/-- `CAL_B_BASE` (R8): the bus address of byte B[0]; byte B[i] is at this address plus i (R60). A host matter. -/
def calBBase : Byte := 0xE1#8

/-- `RAW_BASE` (R8): the bus address of byte RAW[0]; byte RAW[i] is at this address plus i (R60). A host matter. -/
def rawBase : Byte := 0xF7#8

/-- FREE VALUE. What the 18 registers read as while they hold no value (R23: "the 18 registers hold no value"; U4: "leaves
the 18 registers unconstrained and unreadable"). No state that a run from reset reaches reads it: notes/assumptions/3.md. -/
opaque absentCal : CalibrationSet

/-- FREE VALUE. The 32-bit integer `trunc` gives outside its domain (R187: "the conversion is not defined by this spec").
No command applies it there (R203): notes/assumptions/8.md. -/
opaque truncOutside : BitVec 64 → BitVec 32

/-- FREE VALUE. Sign and payload of the NaN that an invalid binary64 operation, or one with a NaN operand, answers
(R183, R185 name the NaN and not its pattern). The first argument numbers the operation. No command reaches it
(R189): notes/assumptions/7.md. -/
opaque nanPayload : Nat → BitVec 64 → BitVec 64 → BitVec 64

end Sys2Proof.Config
end

