-- ==== Sys2Proof/Syntax.lean ====
section
/-! DEFINITION. The command set: one constructor per row of spec/opcode_table.json, and the names of the coefficients and of their extraction kinds. -/

namespace Sys2Proof

/-- The seven commands (R80, R104), each with its operands as the frame carries them. -/
inductive Instr where
  /-- CHKID (R83): the byte the host read from the sensor's identity register. -/
  | chkid (id : Byte)
  /-- LDCAL (R84): block A, 26 bytes, and block B, 7 bytes, index 0 first. -/
  | ldcal (a b : List Byte)
  /-- RDCAL (R85): the coefficient index k. -/
  | rdcal (k : Byte)
  /-- UNPK (R86): the burst, 8 bytes, RAW[0] first. -/
  | unpk (raw : List Byte)
  /-- CMPT (R87): the temperature count, u20. -/
  | cmpt (adcT : BitVec 20)
  /-- CMPP (R88): the pressure count, u20. -/
  | cmpp (adcP : BitVec 20)
  /-- CMPH (R89): the humidity count, u16. -/
  | cmph (adcH : BitVec 16)
  deriving DecidableEq, Repr

/-- The seven opcodes (R80). -/
inductive Opcode where
  | chkid | ldcal | rdcal | unpk | cmpt | cmpp | cmph
  deriving DecidableEq, Repr

/-- The opcode of a command. -/
def Instr.opcode : Instr → Opcode
  | .chkid _ => .chkid
  | .ldcal _ _ => .ldcal
  | .rdcal _ => .rdcal
  | .unpk _ => .unpk
  | .cmpt _ => .cmpt
  | .cmpp _ => .cmpp
  | .cmph _ => .cmph

/-- The names of the 18 coefficients (R21). -/
inductive Coeff where
  | t1 | t2 | t3
  | p1 | p2 | p3 | p4 | p5 | p6 | p7 | p8 | p9
  | h1 | h2 | h3 | h4 | h5 | h6
  deriving DecidableEq, Repr

/-- The six extraction kinds of a coefficient and the two of a raw count (R110). -/
inductive Kind where
  | u8 | s8 | u16le | s16le | s12a | s12b | u20be | u16be
  deriving DecidableEq, Repr

end Sys2Proof
end

