-- ==== Sys2Proof/Machine/State.lean ====
section
/-! DEFINITION. The state of the block, the host's side of the interface, the stop reasons, and the state after reset. -/

namespace Sys2Proof.Machine

/-- The four one-bit flags of `FLAGS` (R27). -/
structure Flags where
  /-- R28: a CHKID has matched in this session. -/
  idOk : Bool
  /-- R29: `CAL` holds a decoded CalibrationSet. -/
  calValid : Bool
  /-- R31: a CMPT has completed since reset. No command tests it. -/
  tfValid : Bool
  /-- R32: an identity mismatch has been seen; every command is refused. -/
  halt : Bool
  deriving DecidableEq, Repr

/-- What the host does to the block (R278): it presents a command frame, or applies the reset event (R270). -/
inductive HostEvent where
  | frame (f : Frame)
  | reset
  deriving DecidableEq, Repr

/-- The five faults of the block (R240). Each is an outcome of a command that the machine survives: `Machine.raise` takes it and
answers a next state. -/
inductive BlockFault where
  /-- 0x01, R241: CHKID's byte is not `EXPECTED_ID`. -/
  | identityMismatch
  /-- 0x02, R242: LDCAL before a matching CHKID, or a command that needs `CAL` before LDCAL. -/
  | sequenceError
  /-- 0x03, R243: a second LDCAL in one session. -/
  | calibrationLocked
  /-- 0x04, R244: decode rejects the frame. -/
  | illegalCommand
  /-- 0x05, R246: any frame while HALT is 1. -/
  | halted
  deriving DecidableEq, Repr

/-- The whole machine: the state of R20, and the two queues that join it to its host. -/
structure State where
  /-- `CAL[0..17]` (R21); none while the registers hold no value (R23: "an optional record that is absent until LDCAL"). -/
  cal : Option CalibrationSet
  /-- `T_FINE` (R25), a two's-complement pattern. -/
  tFine : BitVec Config.tFineWidth
  /-- `FLAGS` (R27). -/
  flags : Flags
  /-- The model's own: what the host has presented and the block has not yet taken, in presentation order (R70). notes/assumptions/2.md. -/
  inbox : List HostEvent
  /-- The model's own: the response frames the block has produced, oldest first (R90, R280). notes/assumptions/2.md. -/
  outbox : List Frame
  deriving DecidableEq, Repr

/-- The machine stops with no fault: every frame has a response after which the block goes on (R260: "none is a stuck state",
R263), and the five faults of R240 are such responses (`BlockFault`). So this type has no constructor, nothing raises one,
and that is safe. notes/assumptions/1.md. -/
inductive Fault
  deriving DecidableEq, Repr

/-- Why the model gives no meaning. -/
inductive Refusal where
  /-- Raised by an arm of `exec` whose instruction has no meaning yet: no arm is such. Safe. -/
  | notModelled (mnemonic : String)
  deriving DecidableEq, Repr

/-- The state after reset (R35): `T_FINE` is 0, the four flags are 0, `CAL` has no value. Nothing has been presented and
nothing answered. -/
def State.reset : State where
  cal := none
  tFine := 0#32
  flags := ⟨false, false, false, false⟩
  inbox := []
  outbox := []

end Sys2Proof.Machine
end

