-- ==== Sys2Proof/Machine/Flags.lean ====
section
/-! DEFINITION. The four flag updates (R27). No arithmetic sets a flag, and no update here clears one: reset alone does. -/

namespace Sys2Proof.Machine

/-- `FLAGS.ID_OK <- 1` (R28). -/
def State.setIdOk (s : State) : State := { s with flags := { s.flags with idOk := true } }

/-- `FLAGS.CAL_VALID <- 1` (R29). -/
def State.setCalValid (s : State) : State := { s with flags := { s.flags with calValid := true } }

/-- `FLAGS.TF_VALID <- 1` (R31). -/
def State.setTfValid (s : State) : State := { s with flags := { s.flags with tfValid := true } }

/-- `FLAGS.HALT <- 1` (R32). -/
def State.setHalt (s : State) : State := { s with flags := { s.flags with halt := true } }

end Sys2Proof.Machine
end

