-- ==== Sys2Proof/WellFormed.lean ====
section
/-! DEFINITION. When a command is one that a frame can carry: the block lengths and the legal operand values. -/

namespace Sys2Proof

/-- The conditions on a command's operands: 26 and 7 calibration bytes (R84), 8 burst bytes (R86), a coefficient index
of at most 17 (R85). The widths of the other operands are in their types (R93, R94). -/
def Instr.wellFormed : Instr → Bool
  | .chkid _ => true
  | .ldcal a b => a.length == 26 && b.length == 7
  | .rdcal k => decide (k.toNat ≤ 17)
  | .unpk raw => raw.length == 8
  | .cmpt _ => true
  | .cmpp _ => true
  | .cmph _ => true

end Sys2Proof
end

