-- ==== Sys2Proof/Decode.lean ====
section
/-! DEFINITION. Frames to commands and back: byte order of multi-byte operands, the opcode map, the decoder (total, rejecting by name) and the encoder. -/

namespace Sys2Proof

/-- A value as n bytes, least significant first (R64). -/
def leBytes : Nat → Nat → List Byte
  | 0, _ => []
  | n + 1, v => BitVec.ofNat 8 v :: leBytes n (v / 256)

/-- `opcode` values of the map of R80. -/
def Opcode.code : Opcode → Byte
  | .chkid => 0x01#8
  | .ldcal => 0x02#8
  | .rdcal => 0x03#8
  | .unpk => 0x04#8
  | .cmpt => 0x05#8
  | .cmpp => 0x06#8
  | .cmph => 0x07#8

/-- Frame length L of each opcode's format (R81). -/
def Opcode.length : Opcode → Nat
  | .chkid => 2
  | .ldcal => 34
  | .rdcal => 2
  | .unpk => 9
  | .cmpt => 4
  | .cmpp => 4
  | .cmph => 3

/-- The opcode map (R104), in the order of the table. -/
def Opcode.all : List Opcode := [.chkid, .ldcal, .rdcal, .unpk, .cmpt, .cmpp, .cmph]

/-- The opcode a first byte selects: all eight bits are compared (R82); every other value is illegal (R95). -/
def Opcode.ofByte? (b : Byte) : Option Opcode := Opcode.all.find? (fun o => o.code == b)

/-- Why decode rejects a frame, in the order of the checks (R98). All four are the fault IllegalCommand (R244). -/
inductive DecodeError where
  /-- L = 0 (R95). -/
  | emptyFrame
  /-- F[0] is 0x00 or 0x08..0xFF (R95). -/
  | unknownOpcode
  /-- L is not the opcode's length (R97). -/
  | wrongLength
  /-- RDCAL with F[1] > 17, or CMPT or CMPP with F[3][7:4] ≠ 0 (R96). -/
  | reservedOperand
  deriving DecidableEq, Repr

/-- The 20-bit operand of FMT-A20 (R93): F[1] is bits 7:0, F[2] bits 15:8, F[3][3:0] bits 19:16; the reserved
F[3][7:4] must be 0. -/
def operand20 (f1 f2 f3 : Byte) : Option (BitVec 20) :=
  if f3.extractLsb' 4 4 = 0#4 then some (f3.extractLsb' 0 4 ++ f2 ++ f1) else none

/-- The 16-bit operand of FMT-A16 (R94). -/
def operand16 (f1 f2 : Byte) : BitVec 16 := f2 ++ f1

/-- The command an opcode and a payload of the right length make (R83 to R89), or the reserved operand (R96). -/
def decodeOperands (o : Opcode) (payload : List Byte) : Except DecodeError Instr :=
  match o, payload with
  | .chkid, [id] => .ok (.chkid id)
  | .ldcal, p => .ok (.ldcal (p.take 26) (p.drop 26))
  | .rdcal, [k] => if k.toNat ≤ 17 then .ok (.rdcal k) else .error .reservedOperand
  | .unpk, p => .ok (.unpk p)
  | .cmpt, [f1, f2, f3] => (operand20 f1 f2 f3).elim (.error .reservedOperand) (fun adc => .ok (.cmpt adc))
  | .cmpp, [f1, f2, f3] => (operand20 f1 f2 f3).elim (.error .reservedOperand) (fun adc => .ok (.cmpp adc))
  | .cmph, [f1, f2] => .ok (.cmph (operand16 f1 f2))
  | _, _ => .error .wrongLength

/-- Decode (R98): total on every byte sequence; the checks stand in the rule's order. Decode reads no state. -/
def decode (f : Frame) : Except DecodeError Instr :=
  match f with
  | [] => .error .emptyFrame
  | f0 :: payload =>
    match Opcode.ofByte? f0 with
    | none => .error .unknownOpcode
    | some o => if f.length = o.length then decodeOperands o payload else .error .wrongLength

/-- The payload F[1..] of a command's frame (R83 to R89). -/
def Instr.payload : Instr → List Byte
  | .chkid id => [id]
  | .ldcal a b => a ++ b
  | .rdcal k => [k]
  | .unpk raw => raw
  | .cmpt adc => leBytes 3 adc.toNat
  | .cmpp adc => leBytes 3 adc.toNat
  | .cmph adc => leBytes 2 adc.toNat

/-- The frame of a command (R81, R104): its opcode, then its payload. -/
def encode (i : Instr) : Frame := i.opcode.code :: i.payload

/-- The frame whose bits, numbered from the least significant bit of F[0], are `w`: the `nbits` bits of it, whole bytes, then
bytes of zero up to the length its opcode has (notes/assumptions/15.md). -/
def frameOfTableWord (nbits w : Nat) : Frame :=
  match leBytes ((nbits + 7) / 8) w with
  | [] => []
  | f0 :: rest =>
    match Opcode.ofByte? f0 with
    | some o => f0 :: rest ++ List.replicate (o.length - (rest.length + 1)) 0#8
    | none => f0 :: rest

/-- The command the decoder reads from a row of the opcode table's words, or none where it refuses. -/
def decodeTableWord (nbits w : Nat) : Option Instr :=
  match decode (frameOfTableWord nbits w) with
  | .ok i => some i
  | .error _ => none

end Sys2Proof
end

