-- ==== Sys2Proof/Machine/Operands.lean ====
section
/-! DEFINITION. Field extraction (R110 to R123), the calibration decoder and raw unpacking as pure functions, and the coefficient table RDCAL reads. The layout is the spec's general-knowledge one (notes/assumptions/17.md). -/

namespace Sys2Proof.Machine

/-- EXT.U8 (R111). -/
def extU8 (b : Byte) : BitVec 8 := b

/-- EXT.S8 (R112): the two's-complement pattern; its signed reading is the result (R120). -/
def extS8 (b : Byte) : BitVec 8 := b

/-- EXT.U16LE (R113): `lo | (hi << 8)`. -/
def extU16LE (lo hi : Byte) : BitVec 16 := hi ++ lo

/-- EXT.S16LE (R114): the pattern of R113, read as two's complement (R120). -/
def extS16LE (lo hi : Byte) : BitVec 16 := hi ++ lo

/-- EXT.S12A (R115): `(hb << 4) | (nb & 0x0F)`, read as two's complement. -/
def extS12A (hb nb : Byte) : BitVec 12 := hb ++ nb.extractLsb' 0 4

/-- EXT.S12B (R116): `(hb << 4) | (nb >> 4)`, read as two's complement. -/
def extS12B (nb hb : Byte) : BitVec 12 := hb ++ nb.extractLsb' 4 4

/-- EXT.U20BE (R117): `(b0 << 12) | (b1 << 4) | (b2 >> 4)`. -/
def extU20BE (b0 b1 b2 : Byte) : BitVec 20 := b0 ++ b1 ++ b2.extractLsb' 4 4

/-- EXT.U16BE (R118): `(b0 << 8) | b1`. -/
def extU16BE (b0 b1 : Byte) : BitVec 16 := b0 ++ b1

/-- Byte i of a block, A[i], B[i] or RAW[i] (R12). A command that a frame carries has every byte its rule reads. -/
def byteAt (block : List Byte) (i : Nat) : Byte := block.getD i 0#8

/-- The temperature coefficients of block A (R132 to R134). -/
def decodeTemp (a : List Byte) : TempCoeffs where
  t1 := extU16LE (byteAt a 0) (byteAt a 1)
  t2 := extS16LE (byteAt a 2) (byteAt a 3)
  t3 := extS16LE (byteAt a 4) (byteAt a 5)

/-- The pressure coefficients of block A (R135 to R143). -/
def decodePress (a : List Byte) : PressCoeffs where
  p1 := extU16LE (byteAt a 6) (byteAt a 7)
  p2 := extS16LE (byteAt a 8) (byteAt a 9)
  p3 := extS16LE (byteAt a 10) (byteAt a 11)
  p4 := extS16LE (byteAt a 12) (byteAt a 13)
  p5 := extS16LE (byteAt a 14) (byteAt a 15)
  p6 := extS16LE (byteAt a 16) (byteAt a 17)
  p7 := extS16LE (byteAt a 18) (byteAt a 19)
  p8 := extS16LE (byteAt a 20) (byteAt a 21)
  p9 := extS16LE (byteAt a 22) (byteAt a 23)

/-- The humidity coefficients of blocks A and B (R144 to R149). -/
def decodeHum (a b : List Byte) : HumCoeffs where
  h1 := extU8 (byteAt a 25)
  h2 := extS16LE (byteAt b 0) (byteAt b 1)
  h3 := extU8 (byteAt b 2)
  h4 := extS12A (byteAt b 3) (byteAt b 4)
  h5 := extS12B (byteAt b 4) (byteAt b 5)
  h6 := extS8 (byteAt b 6)

/-- The CalibrationSet of two blocks (R131); A[24] is read by no rule (R150). -/
def decodeBlocks (a b : List Byte) : CalibrationSet where
  temp := decodeTemp a
  press := decodePress a
  hum := decodeHum a b

/-- The pressure count of a burst (R171). -/
def unpackP (raw : List Byte) : BitVec 20 := extU20BE (byteAt raw 0) (byteAt raw 1) (byteAt raw 2)

/-- The temperature count of a burst (R172). -/
def unpackT (raw : List Byte) : BitVec 20 := extU20BE (byteAt raw 3) (byteAt raw 4) (byteAt raw 5)

/-- The humidity count of a burst (R173). -/
def unpackH (raw : List Byte) : BitVec 16 := extU16BE (byteAt raw 6) (byteAt raw 7)

/-- The coefficients in the order of their index k (R21). -/
def coeffOrder : List Coeff :=
  [.t1, .t2, .t3, .p1, .p2, .p3, .p4, .p5, .p6, .p7, .p8, .p9, .h1, .h2, .h3, .h4, .h5, .h6]

/-- The coefficient with index k (R21, R85); none for the reserved indices. -/
def coeffAt (k : Byte) : Option Coeff := coeffOrder[k.toNat]?

/-- The extraction kind of each coefficient (R132 to R149). -/
def coeffKind : Coeff → Kind
  | .t1 => .u16le
  | .t2 => .s16le
  | .t3 => .s16le
  | .p1 => .u16le
  | .p2 => .s16le
  | .p3 => .s16le
  | .p4 => .s16le
  | .p5 => .s16le
  | .p6 => .s16le
  | .p7 => .s16le
  | .p8 => .s16le
  | .p9 => .s16le
  | .h1 => .u8
  | .h2 => .s16le
  | .h3 => .u8
  | .h4 => .s12a
  | .h5 => .s12b
  | .h6 => .s8

/-- `zext_32` of an unsigned pattern, `sext_32` of a signed one (R10, R91). -/
def extend32 (k : Kind) {n : Nat} (v : BitVec n) : BitVec 32 :=
  match k with
  | .u8 => v.zeroExtend 32
  | .s8 => v.signExtend 32
  | .u16le => v.zeroExtend 32
  | .s16le => v.signExtend 32
  | .s12a => v.signExtend 32
  | .s12b => v.signExtend 32
  | .u20be => v.zeroExtend 32
  | .u16be => v.zeroExtend 32

/-- `CAL[k]` as the 32-bit pattern RDCAL answers (R91, R152). -/
def coeffWord (c : CalibrationSet) (k : Coeff) : BitVec 32 :=
  match k with
  | .t1 => extend32 (coeffKind .t1) c.temp.t1
  | .t2 => extend32 (coeffKind .t2) c.temp.t2
  | .t3 => extend32 (coeffKind .t3) c.temp.t3
  | .p1 => extend32 (coeffKind .p1) c.press.p1
  | .p2 => extend32 (coeffKind .p2) c.press.p2
  | .p3 => extend32 (coeffKind .p3) c.press.p3
  | .p4 => extend32 (coeffKind .p4) c.press.p4
  | .p5 => extend32 (coeffKind .p5) c.press.p5
  | .p6 => extend32 (coeffKind .p6) c.press.p6
  | .p7 => extend32 (coeffKind .p7) c.press.p7
  | .p8 => extend32 (coeffKind .p8) c.press.p8
  | .p9 => extend32 (coeffKind .p9) c.press.p9
  | .h1 => extend32 (coeffKind .h1) c.hum.h1
  | .h2 => extend32 (coeffKind .h2) c.hum.h2
  | .h3 => extend32 (coeffKind .h3) c.hum.h3
  | .h4 => extend32 (coeffKind .h4) c.hum.h4
  | .h5 => extend32 (coeffKind .h5) c.hum.h5
  | .h6 => extend32 (coeffKind .h6) c.hum.h6

end Sys2Proof.Machine
end

