-- ==== Sys2Proof/Machine/Ops.lean ====
section
/-! DEFINITION. The shared operations: register access, responses, taking a fault, the checks that precede a command's effect, and the reset event. -/

namespace Sys2Proof.Machine

/-- What a meaning answers. -/
abbrev Result := Host.Outcome State Fault Refusal

/-- The 18 registers as a command reads them. Every command reads them behind `whenCalibrated`; registers that hold no value
(R23) read as a free value. -/
def State.calRegs (s : State) : CalibrationSet := s.cal.getD Config.absentCal

/-- The 18 writes of LDCAL, one atomic update (R131). -/
def State.writeCal (s : State) (c : CalibrationSet) : State := { s with cal := some c }

/-- `T_FINE <- v` (R201). -/
def State.writeTFine (s : State) (v : BitVec 32) : State := { s with tFine := v }

/-- The block answers with one response frame (R90). -/
def State.respond (s : State) (r : Frame) : State := { s with outbox := s.outbox ++ [r] }

/-- `respond OK(payload)` (R90): status 0x00, then the payload. -/
def ok (payload : List Byte) (s : State) : Result := .next (s.respond (0x00#8 :: payload))

/-- The fault codes (R90, R240). -/
def BlockFault.code : BlockFault → Byte
  | .identityMismatch => 0x01#8
  | .sequenceError => 0x02#8
  | .calibrationLocked => 0x03#8
  | .illegalCommand => 0x04#8
  | .halted => 0x05#8

/-- What a fault does to the state besides its response: IdentityMismatch sets HALT, the others nothing (R240, R241). -/
def BlockFault.effect : BlockFault → State → State
  | .identityMismatch, s => s.setHalt
  | .sequenceError, s => s
  | .calibrationLocked, s => s
  | .illegalCommand, s => s
  | .halted, s => s

/-- TAKING A FAULT (R13, R249): the response is the fault's code alone, no state is saved and control goes nowhere. There is
no return from a fault (R250): the next command runs from the state this leaves. -/
def raise (f : BlockFault) (s : State) : Result := .next ((f.effect s).respond [f.code])

/-- `if FLAGS.HALT = 1 then raise Halted`, the first check of every command (R248 step 1). -/
def unlessHalted (s : State) (k : State → Result) : Result :=
  if s.flags.halt then raise .halted s else k s

/-- Step 2 of R248 for a command term no frame carries: IllegalCommand. A decoded command passes.
DESIGN CHOICE: notes/assumptions/4.md. -/
def whenWellFormed (i : Instr) (s : State) (k : State → Result) : Result :=
  if i.wellFormed then k s else raise .illegalCommand s

/-- `if FLAGS.CAL_VALID = 0 then raise SequenceError` (R248 step 3, R242). -/
def whenCalibrated (s : State) (k : State → Result) : Result :=
  if s.flags.calValid then k s else raise .sequenceError s

/-- A 32-bit pattern as 4 response bytes, a binary64 value as 8 (R64, R91). -/
def word32Bytes (w : BitVec 32) : List Byte := leBytes 4 w.toNat

/-- `bits(x)` as 8 bytes, least significant first (R192). -/
def f64Bytes (x : F64) : List Byte := leBytes 8 x.bits.toNat

/-- The reset event (R270): the block's state is that of R35. The host's queues are the host's: what it has still to present
and what it has been answered stay. -/
def State.applyReset (s : State) : State :=
  { State.reset with inbox := s.inbox, outbox := s.outbox }

end Sys2Proof.Machine
end

