-- ==== Sys2Proof/Machine/Calibration.lean ====
section
/-! DEFINITION. The identity check and the calibration decoder: CHKID, LDCAL, RDCAL. -/

namespace Sys2Proof.Machine

/-- The identity check against any `EXPECTED_ID` (R130, R8). -/
def checkIdentity (expected id : Byte) (s : State) : Result :=
  unlessHalted s fun s =>
    if id = expected then ok [] s.setIdOk else raise .identityMismatch s

/-- CHKID (R130). -/
def execChkid (id : Byte) (s : State) : Result := checkIdentity Config.expectedId id s

/-- LDCAL (R131). -/
def execLdcal (a b : List Byte) (s : State) : Result :=
  unlessHalted s fun s => whenWellFormed (.ldcal a b) s fun s =>
    if s.flags.idOk = false then raise .sequenceError s
    else if s.flags.calValid then raise .calibrationLocked s
    else ok [] (s.writeCal (decodeBlocks a b)).setCalValid

/-- RDCAL (R152). -/
def execRdcal (k : Byte) (s : State) : Result :=
  unlessHalted s fun s =>
    match coeffAt k with
    | none => raise .illegalCommand s
    | some c => whenCalibrated s fun s => ok (word32Bytes (coeffWord s.calRegs c)) s

end Sys2Proof.Machine
end

