-- ==== Sys2Proof/Machine/Float.lean ====
section
/-! DEFINITION. IEEE 754 binary64 (R180 to R192): every value is a whole number of units of 2^-1074, each operation takes the exact result and rounds it once, to nearest, ties to even (notes/assumptions/11.md). -/

namespace Sys2Proof.F64

/-- How many units, the least positive binary64 value 2^-1074, make 1.0. -/
def unitsPerOne : Nat := 2 ^ 1074

/-- The pattern, less its sign, of an infinity (R180: exponent field all ones, fraction zero). -/
def infPattern : Nat := 2047 * 2 ^ 52

/-- Bit 63 (R180). -/
def sign (x : F64) : Bool := x.bits.msb

/-- Bits 62:52 (R180). -/
def exponent (x : F64) : Nat := x.bits.toNat / 2 ^ 52 % 2048

/-- Bits 51:0 (R180). -/
def fraction (x : F64) : Nat := x.bits.toNat % 2 ^ 52

/-- A NaN: exponent all ones, fraction non-zero (R188). -/
def isNaN (x : F64) : Bool := x.exponent == 2047 && x.fraction != 0

/-- An infinity. -/
def isInf (x : F64) : Bool := x.exponent == 2047 && x.fraction == 0

/-- Neither a NaN nor an infinity. -/
def isFinite (x : F64) : Bool := x.exponent != 2047

/-- The magnitude of a finite value, in units. Of an infinity it is a number above every finite one. -/
def magnitude (x : F64) : Nat :=
  if x.exponent = 0 then x.fraction else (2 ^ 52 + x.fraction) * 2 ^ (x.exponent - 1)

/-- A finite value in units, with its sign. -/
def units (x : F64) : Int := if x.sign then -(x.magnitude : Int) else x.magnitude

/-- The value with this sign and this pattern of its low 63 bits. -/
def ofPattern (neg : Bool) (pattern : Nat) : F64 :=
  ⟨BitVec.ofNat 64 ((if neg then 2 ^ 63 else 0) + pattern)⟩

/-- The low 63 bits of the binary64 value nearest to num/den units, ties to an even last bit (R181); the exponent range is
not bounded here. `shift` is how many bits the last place lies above the unit (0 for a subnormal result: gradual underflow,
R189), and `shift * 2^52 + significand` carries into the exponent field by itself when the significand rounds up to 2^53. -/
def roundPattern (num den : Nat) : Nat :=
  let shift := Nat.log2 (num / den) - 52
  let place := den * 2 ^ shift
  let q := num / place
  let r := num % place
  shift * 2 ^ 52 + (q + if place < 2 * r ∨ (2 * r = place ∧ q % 2 = 1) then 1 else 0)

/-- num/den units, with a sign, rounded once (R181); a magnitude beyond the range gives an infinity (R189). -/
def round (neg : Bool) (num den : Nat) : F64 :=
  ofPattern neg (min (roundPattern num den) infPattern)

/-- A zero with this sign. -/
def zero (neg : Bool) : F64 := ofPattern neg 0

/-- An infinity with this sign. -/
def infinity (neg : Bool) : F64 := ofPattern neg infPattern

/-- The NaN of operation number `op` on x and y: some quiet NaN, its sign and payload free (notes/assumptions/7.md). -/
def freeNaN (op : Nat) (x y : F64) : F64 :=
  ⟨0x7FF8000000000000#64 ||| Config.nanPayload op x.bits y.bits⟩

/-- `F(i)` (R182). -/
def ofInt (i : Int) : F64 := round (decide (i < 0)) (i.natAbs * unitsPerOne) 1

/-- The value with the other sign, its other 63 bits kept. -/
def neg (x : F64) : F64 := ofPattern (!x.sign) (x.bits.toNat % 2 ^ 63)

/-- The sum of two finite values (R181, R183): an exact zero is +0.0, unless both operands are negative zeros. -/
def addFinite (x y : F64) : F64 :=
  let z := x.units + y.units
  if z = 0 then zero (x.sign && y.sign) else round (decide (z < 0)) z.natAbs 1

/-- `x +. y` (R181, R183). -/
def add (x y : F64) : F64 :=
  if x.isNaN || y.isNaN then freeNaN 0 x y
  else if x.isInf then (if y.isInf && x.sign != y.sign then freeNaN 0 x y else x)
  else if y.isInf then y
  else addFinite x y

/-- `x -. y` (R181, R183): the sum with the sign of y reversed. -/
def sub (x y : F64) : F64 := add x y.neg

/-- `x *. y` (R181, R184): the sign is the exclusive or of the operands' signs. -/
def mul (x y : F64) : F64 :=
  if x.isNaN || y.isNaN then freeNaN 1 x y
  else if x.isInf || y.isInf then
    (if x.magnitude = 0 ∨ y.magnitude = 0 then freeNaN 1 x y else infinity (x.sign != y.sign))
  else round (x.sign != y.sign) (x.magnitude * y.magnitude) unitsPerOne

/-- `x /. y` (R181, R185): the sign is the exclusive or of the operands' signs. -/
def div (x y : F64) : F64 :=
  if x.isNaN || y.isNaN then freeNaN 2 x y
  else if x.isInf then (if y.isInf then freeNaN 2 x y else infinity (x.sign != y.sign))
  else if y.isInf then zero (x.sign != y.sign)
  else if y.magnitude = 0 then
    (if x.magnitude = 0 then freeNaN 2 x y else infinity (x.sign != y.sign))
  else round (x.sign != y.sign) (x.magnitude * unitsPerOne) y.magnitude

/-- `x ==. y` (R186): false with a NaN operand; +0.0 equals -0.0. -/
def eq (x y : F64) : Bool := !x.isNaN && !y.isNaN && x.units == y.units

/-- `x <. y` (R186): false with a NaN operand. -/
def lt (x y : F64) : Bool := !x.isNaN && !y.isNaN && decide (x.units < y.units)

/-- `x >. y` (R186): false with a NaN operand. -/
def gt (x y : F64) : Bool := lt y x

/-- `trunc(x)` (R187) as the 32-bit register takes it: toward zero; outside the domain (a NaN, an infinity, a magnitude of
2^31 or more) a free value (notes/assumptions/8.md). -/
def trunc (x : F64) : BitVec 32 :=
  if x.isFinite = true ∧ x.magnitude < 2 ^ 31 * unitsPerOne then BitVec.ofInt 32 (x.units.tdiv unitsPerOne)
  else Config.truncOutside x.bits

end Sys2Proof.F64

namespace Sys2Proof

/-- The true IEEE 754 binary64, the implementation the machine's commands run with (R180, R181, R193; notes/assumptions/11.md). -/
def Binary64.ieee : Binary64 where
  add := F64.add
  sub := F64.sub
  mul := F64.mul
  div := F64.div
  ofInt := F64.ofInt
  trunc := F64.trunc
  eq := F64.eq
  lt := F64.lt
  gt := F64.gt

end Sys2Proof
end

