-- ==== Sys2Proof/Machine/Compensation.lean ====
section
/-! DEFINITION. The compensation pipeline and the temperature-fine carry: the formulas and the three commands for any binary64
implementation (R193), and CMPT, CMPP, CMPH as their instances at the machine's own. -/

namespace Sys2Proof.Machine

/-- The type of the parameter `PFormula` (R8, R213): a function of adc_p, P1..P9 and T_FINE only. -/
abbrev PFormula := BitVec 20 → PressCoeffs → BitVec 32 → F64

/-- The type of the parameter `HFormula` (R8): a function of adc_h, H1..H6 and T_FINE, before the clamp. -/
abbrev HFormula := BitVec 16 → HumCoeffs → BitVec 32 → F64

/-- `F(i)` of an unsigned pattern (R182). -/
def fu (ar : Binary64) {n : Nat} (v : BitVec n) : F64 := ar.ofInt v.toNat

/-- `F(i)` of a two's-complement pattern (R182). -/
def fs (ar : Binary64) {n : Nat} (v : BitVec n) : F64 := ar.ofInt v.toInt

/-- A floating-point literal of R191, an integer. -/
def lit (ar : Binary64) (n : Nat) : F64 := ar.ofInt n

/-- The sum `s` of TFormula (R202). -/
def tSum (ar : Binary64) (adcT : BitVec 20) (c : TempCoeffs) : F64 :=
  let a := ar.div (fu ar adcT) (lit ar 16384)
  let b := ar.div (fu ar c.t1) (lit ar 1024)
  let d := ar.sub a b
  let v1 := ar.mul d (fs ar c.t2)
  let e := ar.div (fu ar adcT) (lit ar 131072)
  let f := ar.div (fu ar c.t1) (lit ar 8192)
  let g := ar.sub e f
  let g2 := ar.mul g g
  let v2 := ar.mul g2 (fs ar c.t3)
  ar.add v1 v2

/-- TFormula (R202): the sum and the temperature in degrees Celsius. -/
def tFormula (ar : Binary64) (adcT : BitVec 20) (c : TempCoeffs) : F64 × F64 :=
  let s := tSum ar adcT c
  (s, ar.div s (lit ar 5120))

/-- x1 of the default PFormula (R214): `(F(tf) /. 2.0) -. 64000.0`. -/
def pX1 (ar : Binary64) (tf : BitVec 32) : F64 := ar.sub (ar.div (fs ar tf) (lit ar 2)) (lit ar 64000)

/-- The bracket of the denominator, `1.0 +. (w1 /. 32768.0)` (R214, R216). -/
def pBracket (ar : Binary64) (c : PressCoeffs) (tf : BitVec 32) : F64 :=
  let x1 := pX1 ar tf
  let quadratic := ar.div (ar.mul (ar.mul (fs ar c.p3) x1) x1) (lit ar 524288)
  let w1 := ar.div (ar.add quadratic (ar.mul (fs ar c.p2) x1)) (lit ar 524288)
  ar.add (lit ar 1) (ar.div w1 (lit ar 32768))

/-- The denominator `den` of the default PFormula (R211, R214). -/
def pDenominator (ar : Binary64) (c : PressCoeffs) (tf : BitVec 32) : F64 := ar.mul (pBracket ar c tf) (fu ar c.p1)

/-- y3 of the default PFormula (R214). -/
def pY3 (ar : Binary64) (c : PressCoeffs) (tf : BitVec 32) : F64 :=
  let x1 := pX1 ar tf
  let y1 := ar.div (ar.mul (ar.mul x1 x1) (fs ar c.p6)) (lit ar 32768)
  let y2 := ar.add y1 (ar.mul (ar.mul x1 (fs ar c.p5)) (lit ar 2))
  ar.add (ar.div y2 (lit ar 4)) (ar.mul (fs ar c.p4) (lit ar 65536))

/-- The pascal value of the default PFormula for a denominator that is not zero (R214). -/
def pPascal (ar : Binary64) (adcP : BitVec 20) (c : PressCoeffs) (tf : BitVec 32) (den : F64) : F64 :=
  let p0 := ar.sub (lit ar 1048576) (fu ar adcP)
  let p1 := ar.div (ar.mul (ar.sub p0 (ar.div (pY3 ar c tf) (lit ar 4096))) (lit ar 6250)) den
  let q1 := ar.div (ar.mul (ar.mul (fs ar c.p9) p1) p1) (lit ar 2147483648)
  let q2 := ar.div (ar.mul p1 (fs ar c.p8)) (lit ar 32768)
  ar.add p1 (ar.div (ar.add (ar.add q1 q2) (fs ar c.p7)) (lit ar 16))

/-- The default `PFormula` (R214) with the guard of R211, for any `NAN_BITS`. -/
def defaultPFormula (ar : Binary64) (nan : F64) : PFormula := fun adcP c tf =>
  let den := pDenominator ar c tf
  if ar.eq den (lit ar 0) then nan else ar.div (pPascal ar adcP c tf den) (lit ar 100)

/-- The default `HFormula` (R222), unclamped. -/
def defaultHFormula (ar : Binary64) : HFormula := fun adcH c tf =>
  let v := ar.sub (fs ar tf) (lit ar 76800)
  let a := ar.add (ar.mul (fs ar c.h4) (lit ar 64)) (ar.mul (ar.div (fs ar c.h5) (lit ar 16384)) v)
  let l := ar.sub (fu ar adcH) a
  let inner := ar.add (lit ar 1) (ar.mul (ar.div (fu ar c.h3) (lit ar 67108864)) v)
  let m := ar.mul (ar.mul (ar.div (fs ar c.h6) (lit ar 67108864)) v) inner
  let r := ar.mul (ar.div (fs ar c.h2) (lit ar 65536)) (ar.add (lit ar 1) m)
  let h0 := ar.mul l r
  ar.mul h0 (ar.sub (lit ar 1) (ar.div (ar.mul (fu ar c.h1) h0) (lit ar 524288)))

/-- The clamp (R221). -/
def clampHumidity (ar : Binary64) (h : F64) : F64 :=
  if ar.gt h (lit ar 100) then lit ar 100 else if ar.lt h (lit ar 0) then lit ar 0 else h

/-- CMPT for any binary64 implementation (R201, R193). -/
def compensateTemperature (ar : Binary64) (adcT : BitVec 20) (s : State) : Result :=
  unlessHalted s fun s => whenCalibrated s fun s =>
    let r := tFormula ar adcT s.calRegs.temp
    let tf := ar.trunc r.1
    ok (f64Bytes r.2 ++ word32Bytes tf) (s.writeTFine tf).setTfValid

/-- CMPP for any instantiation of `PFormula` (R210, R213). -/
def compensatePressure (pf : PFormula) (adcP : BitVec 20) (s : State) : Result :=
  unlessHalted s fun s => whenCalibrated s fun s =>
    ok (f64Bytes (pf adcP s.calRegs.press s.tFine)) s

/-- CMPH for any binary64 implementation and any instantiation of `HFormula`; the clamp is outside the parameter (R220, R193,
D23). -/
def compensateHumidity (ar : Binary64) (hf : HFormula) (adcH : BitVec 16) (s : State) : Result :=
  unlessHalted s fun s => whenCalibrated s fun s =>
    ok (f64Bytes (clampHumidity ar (hf adcH s.calRegs.hum s.tFine))) s

/-- CMPT (R201) with the machine's binary64 (R193; notes/assumptions/11.md). -/
def execCmpt (adcT : BitVec 20) (s : State) : Result :=
  compensateTemperature .ieee adcT s

/-- CMPP (R210) at the default parameters (R8, R193; notes/assumptions/6.md, 9.md and 11.md). -/
def execCmpp (adcP : BitVec 20) (s : State) : Result :=
  compensatePressure (defaultPFormula .ieee Config.nanBits) adcP s

/-- CMPH (R220) at the default parameters (R8, R193; notes/assumptions/9.md and 11.md). -/
def execCmph (adcH : BitVec 16) (s : State) : Result :=
  compensateHumidity .ieee (defaultHFormula .ieee) adcH s

end Sys2Proof.Machine
end

