-- ==== Sys2Proof/Machine/RawSample.lean ====
section
/-! DEFINITION. Raw sample assembly: UNPK. -/

namespace Sys2Proof.Machine

/-- The response payload of UNPK (R91): adc_p and adc_t as 3 bytes each, adc_h as 2, little-endian. -/
def rawSampleBytes (raw : List Byte) : List Byte :=
  leBytes 3 (unpackP raw).toNat ++ leBytes 3 (unpackT raw).toNat ++ leBytes 2 (unpackH raw).toNat

/-- UNPK (R170): a pure function of the burst; it needs neither a matching CHKID nor a CalibrationSet. -/
def execUnpk (raw : List Byte) (s : State) : Result :=
  unlessHalted s fun s => whenWellFormed (.unpk raw) s fun s => ok (rawSampleBytes raw) s

end Sys2Proof.Machine
end

