-- ==== Sys2Proof/Machine/Dispatch.lean ====
section
/-! DEFINITION. One arm per command: each calls its meaning. -/

namespace Sys2Proof.Machine

def exec (i : Instr) (s : State) : Host.Outcome State Fault Refusal :=
  match i with
  | .chkid id => Sys2Proof.Machine.execChkid id s
  | .ldcal a b => Sys2Proof.Machine.execLdcal a b s
  | .rdcal k => Sys2Proof.Machine.execRdcal k s
  | .unpk raw => Sys2Proof.Machine.execUnpk raw s
  | .cmpt adcT => Sys2Proof.Machine.execCmpt adcT s
  | .cmpp adcP => Sys2Proof.Machine.execCmpp adcP s
  | .cmph adcH => Sys2Proof.Machine.execCmph adcH s

end Sys2Proof.Machine
end

