-- ==== Sys2Proof/Machine/Frame.lean ====
section
/-! DEFINITION. Running one presented frame: the priority of the checks that precede a command (R248), and how a frame is presented. -/

namespace Sys2Proof.Machine

/-- One command frame: Halted before decode (R248 step 1), a frame decode rejects is IllegalCommand (step 2), and a command
runs its meaning (steps 3 and 4). -/
def runFrame (f : Frame) (s : State) : Result :=
  if s.flags.halt then raise .halted s
  else match decode f with
    | .error _ => raise .illegalCommand s
    | .ok i => exec i s

/-- The block takes its next host event: a frame runs, the reset event resets (R270). -/
def takeEvent (e : HostEvent) (s : State) : Result :=
  match e with
  | .frame f => runFrame f s
  | .reset => .next s.applyReset

/-- The host presents an event before all others it has waiting. -/
def State.presentFirst (s : State) (e : HostEvent) : State := { s with inbox := e :: s.inbox }

end Sys2Proof.Machine
end

