-- ==== Sys2Proof/Machine/Step.lean ====
section
/-! DEFINITION. The step: the block takes the next event its host presents (R30, R70). -/

namespace Sys2Proof.Machine

/-- One step. With nothing presented the block is idle and keeps its state (R259). notes/assumptions/2.md. -/
def step (s : State) : Host.Outcome State Fault Refusal :=
  match s.inbox with
  | [] => .next s
  | e :: rest => takeEvent e { s with inbox := rest }

/-- `s` with the frame of a table word presented first, so that the next step takes exactly it. notes/assumptions/2.md. -/
def State.withFetchWord (s : State) (nbits w : Nat) : State := s.presentFirst (.frame (frameOfTableWord nbits w))

end Sys2Proof.Machine
end

