-- ==== Sys2Proof/Machine/Assembler.lean ====
section
/-! DEFINITION. The assembler notation of R100 for commands and responses. It writes text; nothing of the machine rests on it (notes/assumptions/16.md). -/

namespace Sys2Proof.Machine

/-- One hexadecimal digit. -/
def hexDigit (n : Nat) : Char := "0123456789ABCDEF".toList.getD n '?'

/-- A byte as two hexadecimal digits. -/
def hexByte (b : Byte) : String := String.ofList [hexDigit (b.toNat / 16), hexDigit (b.toNat % 16)]

/-- Bytes in hexadecimal, index 0 first, space separated. -/
def hexBytes (l : List Byte) : String := " ".intercalate (l.map hexByte)

/-- The name of each coefficient (R21). -/
def coeffName : Coeff → String
  | .t1 => "T1"
  | .t2 => "T2"
  | .t3 => "T3"
  | .p1 => "P1"
  | .p2 => "P2"
  | .p3 => "P3"
  | .p4 => "P4"
  | .p5 => "P5"
  | .p6 => "P6"
  | .p7 => "P7"
  | .p8 => "P8"
  | .p9 => "P9"
  | .h1 => "H1"
  | .h2 => "H2"
  | .h3 => "H3"
  | .h4 => "H4"
  | .h5 => "H5"
  | .h6 => "H6"

/-- The name of each fault (R240). -/
def BlockFault.name : BlockFault → String
  | .identityMismatch => "IdentityMismatch"
  | .sequenceError => "SequenceError"
  | .calibrationLocked => "CalibrationLocked"
  | .illegalCommand => "IllegalCommand"
  | .halted => "Halted"

/-- The line of a command (R100). -/
def asmLine : Instr → String
  | .chkid id => "CHKID  0x" ++ hexByte id
  | .ldcal a b => "LDCAL  A=" ++ hexBytes a ++ " B=" ++ hexBytes b
  | .rdcal k => "RDCAL  " ++ ((coeffAt k).map coeffName).getD (toString k.toNat)
  | .unpk raw => "UNPK   " ++ hexBytes raw
  | .cmpt adc => "CMPT   " ++ toString adc.toNat
  | .cmpp adc => "CMPP   " ++ toString adc.toNat
  | .cmph adc => "CMPH   " ++ toString adc.toNat

/-- The fault a status byte names (R90). -/
def faultOfCode (code : Byte) : Option BlockFault :=
  [BlockFault.identityMismatch, .sequenceError, .calibrationLocked, .illegalCommand, .halted].find? (fun f => f.code == code)

/-- The text of a response (R100): OK with its payload bytes, or the fault's name. -/
def responseText : Frame → String
  | [] => "->"
  | code :: payload =>
    match faultOfCode code with
    | some f => "-> FAULT " ++ f.name
    | none => if payload.isEmpty then "-> OK" else "-> OK " ++ hexBytes payload

end Sys2Proof.Machine
end

