-- ==== Sys2Proof/Machine/HostSequences.lean ====
section
/-! DEFINITION. The host's conventions: a run of frames (R280), the pseudo-commands INIT (R101) and CYCLE (R102). None is an encoding. -/

namespace Sys2Proof.Machine

/-- A second action after a first that answered a next state. -/
def andThen (r : Result) (k : State → Result) : Result :=
  match r with
  | .next s => k s
  | .fault f => .fault f
  | .refused x => .refused x

/-- A run: the frames in presentation order, a fold of the step over the list (R30, R280). -/
def runFrames : List Frame → State → Result
  | [], s => .next s
  | f :: fs, s => andThen (runFrame f s) (runFrames fs)

/-- As many steps of the machine, stopping at the first that answers no next state. -/
def runSteps : Nat → State → Result
  | 0, s => .next s
  | k + 1, s => andThen (step s) (runSteps k)

/-- The latest response frame; the empty frame if there is none. -/
def State.lastResponse (s : State) : Frame := s.outbox.getLastD []

/-- The latest response has the status OK (R90). -/
def State.answeredOk (s : State) : Bool := s.lastResponse.head? == some 0x00#8

/-- `INIT id, A B` (R101): CHKID, and LDCAL only if that responded OK. -/
def runInit (id : Byte) (a b : List Byte) (s : State) : Result :=
  andThen (runFrame (encode (.chkid id)) s) fun s' =>
    if s'.answeredOk then runFrame (encode (.ldcal a b)) s' else .next s'

/-- The frames CYCLE makes of a response of UNPK: CMPT, CMPP and CMPH with the bytes S[4..6], S[1..3] and S[7..8] copied
unchanged into F[1..] (R91, R102). -/
def cycleFrames (r : Frame) : List Frame :=
  [0x05#8 :: (r.drop 4).take 3, 0x06#8 :: (r.drop 1).take 3, 0x07#8 :: (r.drop 7).take 2]

/-- `CYCLE raw` (R102): UNPK, then CMPT, CMPP and CMPH with the counts of its response. When UNPK does not respond OK there
are no counts and the cycle ends there (notes/assumptions/10.md). -/
def runCycle (raw : List Byte) (s : State) : Result :=
  andThen (runFrame (encode (.unpk raw)) s) fun s' =>
    if s'.answeredOk then runFrames (cycleFrames s'.lastResponse) s' else .next s'

end Sys2Proof.Machine
end

