-- ==== Sys2Proof/Safety.lean ====
section
/-! DEFINITION. The terms claims use: the invariant of R37, what a run keeps, the premises a claim about a cycle names, the real value of a binary64 number, and what the spec's rules say of a binary64 implementation. -/

namespace Sys2Proof

namespace Machine

/-- The invariant of the reachable states (R37 (a) to (d)), with what `CAL` itself is held as: a CalibrationSet exactly while
CAL_VALID is 1 (R23, R29). The ranges of R37 (e) are the registers' widths. -/
structure State.Inv (s : State) : Prop where
  /-- `CAL` holds a value exactly when CAL_VALID is 1. -/
  calPresent : s.cal.isSome = s.flags.calValid
  /-- R37 (a). -/
  calNeedsId : s.flags.calValid = true → s.flags.idOk = true
  /-- R37 (b). -/
  tfNeedsCal : s.flags.tfValid = true → s.flags.calValid = true
  /-- R37 (c). -/
  tfZero : s.flags.tfValid = false → s.tFine = 0#32
  /-- R37 (d): |T_FINE| < 2^22, R26. -/
  tfLow : -(2 ^ 22) < s.tFine.toInt
  tfHigh : s.tFine.toInt < 2 ^ 22

/-- The state of the block alone (R20): what two states share when they differ only in the host's queues. -/
def State.sameBlock (s t : State) : Prop := s.cal = t.cal ∧ s.tFine = t.tFine ∧ s.flags = t.flags

/-- No flag of the first is 1 and 0 in the second (R37 (f)). -/
def Flags.le (f g : Flags) : Prop :=
  (f.idOk = true → g.idOk = true) ∧ (f.calValid = true → g.calValid = true) ∧
    (f.tfValid = true → g.tfValid = true) ∧ (f.halt = true → g.halt = true)

/-- A response frame is a fault (R90): its status is not 0x00. -/
def isFaultResponse (r : Frame) : Bool := r.head? != some 0x00#8

/-- The premise of a claim about a cycle's pressure and humidity (R274): `T_FINE` is what CMPT writes for this temperature
count, and some CMPT has completed. -/
def State.carries (s : State) (adcT : BitVec 20) : Prop :=
  s.flags.tfValid = true ∧ s.tFine = (tSum .ieee adcT s.calRegs.temp).trunc

/-- The condition under which the block has left its start-up (R273): identity checked, calibration loaded, not halted. -/
def State.ready (s : State) : Prop := s.flags.halt = false ∧ s.flags.calValid = true

end Machine

/-- The real number a finite binary64 value is (R180). -/
def F64.value (x : F64) : ℚ := (x.units : ℚ) / (F64.unitsPerOne : ℚ)

/-- The bound from which a magnitude rounds to an infinity (roundTiesToEven, R181, R189): half a last place above the
greatest finite value. -/
def F64.overflowBound : ℚ := 2 ^ 1024 - 2 ^ 970

/-- r is the exact value rounded once to binary64 with roundTiesToEven (R181): no finite value is nearer, and if another one is
as near, r has an even last fraction bit. -/
def F64.IsRounded (exact : ℚ) (r : F64) : Prop :=
  r.isFinite = true ∧
  (∀ z : F64, z.isFinite = true → |r.value - exact| ≤ |z.value - exact|) ∧
  (∀ z : F64, z.isFinite = true → z.value ≠ r.value → |z.value - exact| = |r.value - exact| → r.fraction % 2 = 0)

/-- r is the IEEE 754 result of an operation on finite operands whose exact real result is `exact` (R181, R183 to R185, R189): its
sign is that of the exact result, or `zeroSign` when that is zero; it is the exact result rounded once, or an infinity from the
overflow bound on. -/
structure F64.IsResult (exact : ℚ) (zeroSign : Bool) (r : F64) : Prop where
  sign_eq : r.sign = if exact = 0 then zeroSign else decide (exact < 0)
  rounded : |exact| < F64.overflowBound → F64.IsRounded exact r
  overflow : F64.overflowBound ≤ |exact| → r.isInf = true

/-- What R180 to R187 say of a binary64 implementation (R193). The patterns of a NaN that an operation answers, and `trunc` outside its domain, stay open. -/
structure Binary64.Rules (ar : Binary64) : Prop where
  /-- R181, R183. -/
  add_finite : ∀ x y : F64, x.isFinite = true → y.isFinite = true →
    F64.IsResult (x.value + y.value) (x.sign && y.sign) (ar.add x y)
  sub_finite : ∀ x y : F64, x.isFinite = true → y.isFinite = true →
    F64.IsResult (x.value - y.value) (x.sign && !y.sign) (ar.sub x y)
  /-- R181, R184. -/
  mul_finite : ∀ x y : F64, x.isFinite = true → y.isFinite = true →
    F64.IsResult (x.value * y.value) (x.sign != y.sign) (ar.mul x y)
  /-- R181, R185. -/
  div_finite : ∀ x y : F64, x.isFinite = true → y.isFinite = true → y.value ≠ 0 →
    F64.IsResult (x.value / y.value) (x.sign != y.sign) (ar.div x y)
  /-- R185: a non-zero value by zero, and 0/0. -/
  div_zero : ∀ x y : F64, x.isFinite = true → y.isFinite = true → y.value = 0 →
    if x.value = 0 then (ar.div x y).isNaN = true else ar.div x y = F64.infinity (x.sign != y.sign)
  /-- R183: NaN operands. -/
  nan_operand : ∀ x y : F64, x.isNaN = true ∨ y.isNaN = true →
    (ar.add x y).isNaN = true ∧ (ar.sub x y).isNaN = true ∧ (ar.mul x y).isNaN = true ∧ (ar.div x y).isNaN = true
  /-- R183: infinite operands, and inf - inf = NaN. -/
  add_infinite : ∀ x y : F64, x.isNaN = false → y.isNaN = false → x.isInf = true ∨ y.isInf = true →
    if x.isInf = true ∧ y.isInf = true ∧ x.sign ≠ y.sign then (ar.add x y).isNaN = true
    else ar.add x y = if x.isInf then x else y
  sub_infinite : ∀ x y : F64, x.isNaN = false → y.isNaN = false → x.isInf = true ∨ y.isInf = true →
    if x.isInf = true ∧ y.isInf = true ∧ x.sign = y.sign then (ar.sub x y).isNaN = true
    else ar.sub x y = if x.isInf then x else F64.infinity (!y.sign)
  /-- R184, R185 at infinite operands, as IEEE 754. -/
  mul_infinite : ∀ x y : F64, x.isNaN = false → y.isNaN = false → x.isInf = true ∨ y.isInf = true →
    if x.magnitude = 0 ∨ y.magnitude = 0 then (ar.mul x y).isNaN = true
    else ar.mul x y = F64.infinity (x.sign != y.sign)
  div_infinite : ∀ x y : F64, x.isNaN = false → y.isNaN = false → x.isInf = true ∨ y.isInf = true →
    if x.isInf = true ∧ y.isInf = true then (ar.div x y).isNaN = true
    else ar.div x y = if x.isInf then F64.infinity (x.sign != y.sign) else F64.zero (x.sign != y.sign)
  /-- R182. -/
  ofInt_exact : ∀ i : Int, i.natAbs < 2 ^ 53 → (ar.ofInt i).isFinite = true ∧ (ar.ofInt i).value = i
  ofInt_zero : ar.ofInt 0 = ⟨0x0000000000000000#64⟩
  /-- R186. -/
  compare_finite : ∀ x y : F64, x.isFinite = true → y.isFinite = true →
    (ar.eq x y = true ↔ x.value = y.value) ∧ (ar.lt x y = true ↔ x.value < y.value) ∧
      (ar.gt x y = true ↔ y.value < x.value)
  compare_nan : ∀ x y : F64, x.isNaN = true ∨ y.isNaN = true →
    ar.eq x y = false ∧ ar.lt x y = false ∧ ar.gt x y = false
  compare_infinite : ∀ x y : F64, x.isNaN = false → y.isNaN = false → x.isInf = true ∨ y.isInf = true →
    ar.eq x y = decide (x = y) ∧
    ar.lt x y = (if x = y then false else if x.isInf then x.sign else !y.sign) ∧
    ar.gt x y = (if x = y then false else if x.isInf then !x.sign else y.sign)
  /-- R187. -/
  trunc_finite : ∀ x : F64, x.isFinite = true → |x.value| < 2 ^ 31 →
    (ar.trunc x).toInt = if 0 ≤ x.value then ⌊x.value⌋ else ⌈x.value⌉

/-- Rounding is monotone, and exact on an exactly representable result (R193, R203): r lies between any two finite values that the
exact result lies between, so it is a finite value equal to the exact result when there is one. -/
def F64.Between (exact : ℚ) (r : F64) : Prop :=
  ∀ lo hi : F64, lo.isFinite = true → hi.isFinite = true → lo.value ≤ exact → exact ≤ hi.value →
    r.isFinite = true ∧ lo.value ≤ r.value ∧ r.value ≤ hi.value

/-- What R193 asks of an implementation for the claims that do not depend on rounding: monotone and exact on exactly representable
results, with `|trunc(x)| ≤ |x|` (R187) and the comparisons of R186. It is less than `Binary64.Rules`. -/
structure Binary64.MonotoneExact (ar : Binary64) : Prop where
  add : ∀ x y : F64, x.isFinite = true → y.isFinite = true → F64.Between (x.value + y.value) (ar.add x y)
  sub : ∀ x y : F64, x.isFinite = true → y.isFinite = true → F64.Between (x.value - y.value) (ar.sub x y)
  mul : ∀ x y : F64, x.isFinite = true → y.isFinite = true → F64.Between (x.value * y.value) (ar.mul x y)
  div : ∀ x y : F64, x.isFinite = true → y.isFinite = true → y.value ≠ 0 → F64.Between (x.value / y.value) (ar.div x y)
  ofInt : ∀ i : Int, i.natAbs < 2 ^ 53 → F64.Between i (ar.ofInt i)
  trunc : ∀ x : F64, x.isFinite = true → |x.value| < 2 ^ 31 → |((ar.trunc x).toInt : ℚ)| ≤ |x.value|
  compare_finite : ∀ x y : F64, x.isFinite = true → y.isFinite = true →
    (ar.eq x y = true ↔ x.value = y.value) ∧ (ar.lt x y = true ↔ x.value < y.value) ∧
      (ar.gt x y = true ↔ y.value < x.value)
  compare_nan : ∀ x y : F64, x.isNaN = true → ar.lt x y = false ∧ ar.gt x y = false
  compare_infinite : ∀ x y : F64, x.isInf = true → y.isFinite = true → ar.lt x y = x.sign ∧ ar.gt x y = !x.sign

end Sys2Proof
end

