-- ==== Sys2Proof/Certificates/Slice0/Obligations.lean ====
section
/-! DEFINITION. The statements about the model, for the provers. Each docstring names the rule of spec/ it formalises. -/

namespace Sys2Proof

open Machine

/-! ## Words the statements use -/

/-- Byte i of a block as a number. -/
def byteNat (block : List Byte) (i : Nat) : Nat := (block.getD i 0#8).toNat

/-- The little-endian number at bytes i and i + 1 of a block (R113). -/
def le16At (block : List Byte) (i : Nat) : Nat := byteNat block i + 256 * byteNat block (i + 1)

/-- R10: `v - 2^N if v[N-1] = 1 else v`. -/
def foldSigned (n v : Nat) : Int := if 2 ^ (n - 1) ≤ v then (v : Int) - 2 ^ n else v

/-- The 18 words RDCAL answers, in the order of the index (R21, R91): unsigned coefficients zero-extended, signed ones
sign-extended. -/
def coeffWords (c : CalibrationSet) : List (BitVec 32) :=
  [c.temp.t1.zeroExtend 32, c.temp.t2.signExtend 32, c.temp.t3.signExtend 32,
   c.press.p1.zeroExtend 32, c.press.p2.signExtend 32, c.press.p3.signExtend 32, c.press.p4.signExtend 32,
   c.press.p5.signExtend 32, c.press.p6.signExtend 32, c.press.p7.signExtend 32, c.press.p8.signExtend 32,
   c.press.p9.signExtend 32,
   c.hum.h1.zeroExtend 32, c.hum.h2.signExtend 32, c.hum.h3.zeroExtend 32, c.hum.h4.signExtend 32,
   c.hum.h5.signExtend 32, c.hum.h6.signExtend 32]

/-- The status of the response to a frame, by the priority of R248. -/
def expectedStatus (f : Frame) (s : State) : Byte :=
  if s.flags.halt then 0x05#8 else
  match decode f with
  | .error _ => 0x04#8
  | .ok (.chkid id) => if id = Config.expectedId then 0x00#8 else 0x01#8
  | .ok (.ldcal _ _) => if s.flags.idOk then (if s.flags.calValid then 0x03#8 else 0x00#8) else 0x02#8
  | .ok (.unpk _) => 0x00#8
  | .ok (.rdcal _) => if s.flags.calValid then 0x00#8 else 0x02#8
  | .ok (.cmpt _) => if s.flags.calValid then 0x00#8 else 0x02#8
  | .ok (.cmpp _) => if s.flags.calValid then 0x00#8 else 0x02#8
  | .ok (.cmph _) => if s.flags.calValid then 0x00#8 else 0x02#8

/-- The length of an OK response, by command (R91). -/
def okLength : Instr → Nat
  | .chkid _ => 1
  | .ldcal _ _ => 1
  | .rdcal _ => 5
  | .unpk _ => 9
  | .cmpt _ => 13
  | .cmpp _ => 9
  | .cmph _ => 9

/-- `let s = v1 +. v2` of R202, step by step. -/
def specSum (adcT t1 : Nat) (t2 t3 : Int) : F64 :=
  let a := (F64.ofInt adcT).div (F64.ofInt 16384)
  let b := (F64.ofInt t1).div (F64.ofInt 1024)
  let d := a.sub b
  let v1 := d.mul (F64.ofInt t2)
  let e := (F64.ofInt adcT).div (F64.ofInt 131072)
  let f := (F64.ofInt t1).div (F64.ofInt 8192)
  let g := e.sub f
  let g2 := g.mul g
  let v2 := g2.mul (F64.ofInt t3)
  v1.add v2

/-- The denominator of R214, step by step. -/
def specDenominator (p1 : Nat) (p2 p3 tf : Int) : F64 :=
  let x1 := ((F64.ofInt tf).div (F64.ofInt 2)).sub (F64.ofInt 64000)
  let w1 := (((((F64.ofInt p3).mul x1).mul x1).div (F64.ofInt 524288)).add ((F64.ofInt p2).mul x1)).div (F64.ofInt 524288)
  ((F64.ofInt 1).add (w1.div (F64.ofInt 32768))).mul (F64.ofInt p1)

/-- The hectopascal value of R214 for a non-zero denominator, step by step. -/
def specPressure (adcP : Nat) (den : F64) (p4 p5 p6 p7 p8 p9 tf : Int) : F64 :=
  let x1 := ((F64.ofInt tf).div (F64.ofInt 2)).sub (F64.ofInt 64000)
  let y1 := ((x1.mul x1).mul (F64.ofInt p6)).div (F64.ofInt 32768)
  let y2 := y1.add ((x1.mul (F64.ofInt p5)).mul (F64.ofInt 2))
  let y3 := (y2.div (F64.ofInt 4)).add ((F64.ofInt p4).mul (F64.ofInt 65536))
  let p0 := (F64.ofInt 1048576).sub (F64.ofInt adcP)
  let p1 := ((p0.sub (y3.div (F64.ofInt 4096))).mul (F64.ofInt 6250)).div den
  let q1 := (((F64.ofInt p9).mul p1).mul p1).div (F64.ofInt 2147483648)
  let q2 := (p1.mul (F64.ofInt p8)).div (F64.ofInt 32768)
  let pa := p1.add (((q1.add q2).add (F64.ofInt p7)).div (F64.ofInt 16))
  pa.div (F64.ofInt 100)

/-- The unclamped humidity of R222, step by step. -/
def specHumidity (adcH h1 : Nat) (h2 : Int) (h3 : Nat) (h4 h5 h6 tf : Int) : F64 :=
  let v := (F64.ofInt tf).sub (F64.ofInt 76800)
  let a := ((F64.ofInt h4).mul (F64.ofInt 64)).add (((F64.ofInt h5).div (F64.ofInt 16384)).mul v)
  let l := (F64.ofInt adcH).sub a
  let inner := (F64.ofInt 1).add (((F64.ofInt h3).div (F64.ofInt 67108864)).mul v)
  let m := (((F64.ofInt h6).div (F64.ofInt 67108864)).mul v).mul inner
  let r := ((F64.ofInt h2).div (F64.ofInt 65536)).mul ((F64.ofInt 1).add m)
  let h0 := l.mul r
  h0.mul ((F64.ofInt 1).sub (((F64.ofInt h1).mul h0).div (F64.ofInt 524288)))

end Sys2Proof

section Statements

open Sys2Proof Sys2Proof.Machine

/-! ## Reset and the step -/

/-- R35: `T_FINE` is 0, the four flags are 0, `CAL` has no value and is not readable until LDCAL. -/
def Obligations.ResetStateOfTheBlock : Prop :=
  State.reset.tFine = 0#32 ∧ State.reset.flags.idOk = false ∧ State.reset.flags.calValid = false ∧
  State.reset.flags.tfValid = false ∧ State.reset.flags.halt = false ∧ State.reset.cal = none ∧
  (∀ k : Byte, k.toNat ≤ 17 → exec (.rdcal k) State.reset = .next { State.reset with outbox := [[0x02#8]] })

/-- Derived from R270 and R278, with the model's queue (notes/assumptions/2.md): after the reset event, whatever the state was (halted too), the block's state is that of R35, and nothing is
answered. -/
def Obligations.ResetEventGivesResetState : Prop :=
  ∀ (s : State) (rest : List HostEvent), s.inbox = .reset :: rest →
    ∃ t, step s = .next t ∧ t.cal = none ∧ t.tFine = 0#32 ∧ t.flags = ⟨false, false, false, false⟩ ∧ t.outbox = s.outbox

/-- Derived from R259: with nothing presented the block is idle and keeps its state. That the model has such a step is its own choice
(notes/assumptions/2.md). -/
def Obligations.IdleBlockKeepsItsState : Prop :=
  ∀ s : State, s.inbox = [] → step s = .next s

/-- Derived from R30 and R70, with the model's queue (notes/assumptions/2.md): a presented frame that decodes runs the meaning of its command, in the state as it stands; the frame is taken
from what the host has presented. -/
def Obligations.StepRunsTheDecodedCommand : Prop :=
  ∀ (s : State) (f : Frame) (rest : List HostEvent) (i : Instr),
    s.inbox = .frame f :: rest → decode f = .ok i → step s = exec i { s with inbox := rest }

/-- Derived from R244: a frame that decode rejects, presented to a block that is not halted, is answered IllegalCommand and changes no state of the block. -/
def Obligations.StepAnswersIllegalCommand : Prop :=
  ∀ (s : State) (f : Frame) (rest : List HostEvent) (e : DecodeError),
    s.inbox = .frame f :: rest → s.flags.halt = false → decode f = .error e →
    step s = .next { s with inbox := rest, outbox := s.outbox ++ [[0x04#8]] }

/-- Derived from R246 and R248: while HALT is 1 every frame, legal or not, is answered Halted and changes nothing. -/
def Obligations.HaltedOutranksDecode : Prop :=
  ∀ (s : State) (f : Frame) (rest : List HostEvent),
    s.inbox = .frame f :: rest → s.flags.halt = true →
    step s = .next { s with inbox := rest, outbox := s.outbox ++ [[0x05#8]] }

/-- Derived from R260 and R263 (notes/assumptions/1.md): no step stops the machine, whatever the state and whatever bytes are presented. -/
def Obligations.StepNeverStops : Prop :=
  ∀ s : State, ∃ t, step s = .next t

/-- Derived from R30 and R280, with the model's queue (notes/assumptions/2.md): running the machine for as many steps as frames are presented is the fold of the frames over the state. -/
def Obligations.RunIsTheFoldOfTheFrames : Prop :=
  ∀ (fs : List Frame) (rest : List HostEvent) (s t : State),
    runFrames fs { s with inbox := rest } = .next t →
    runSteps fs.length { s with inbox := fs.map .frame ++ rest } = .next t

/-! ## Faults -/

/-- R248, R240, R249, R90: every frame has exactly one response, its status is the one the priority order gives, and a fault
response is one byte; IdentityMismatch writes HALT and no other fault writes anything. -/
def Obligations.FaultPriorityAndEffect : Prop :=
  ∀ (f : Frame) (s : State), ∃ t r, runFrame f s = .next t ∧ t.outbox = s.outbox ++ [r] ∧ t.inbox = s.inbox ∧
    r.head? = some (expectedStatus f s) ∧
    (expectedStatus f s ≠ 0x00#8 → r = [expectedStatus f s] ∧ t.cal = s.cal ∧ t.tFine = s.tFine ∧
      t.flags = { s.flags with halt := s.flags.halt || expectedStatus f s == 0x01#8 })

/-- Derived from R91: the length of the response to a command that answers OK. -/
def Obligations.OkResponseLengths : Prop :=
  ∀ (i : Instr) (s t : State) (r : Frame), exec i s = .next t → t.outbox = s.outbox ++ [r] → r.head? = some 0x00#8 →
    r.length = okLength i

/-- R242: LDCAL before a matching CHKID, and RDCAL, CMPT, CMPP and CMPH before LDCAL, are answered SequenceError with no
effect; with a CalibrationSet, CMPP and CMPH answer OK, whether or not a CMPT has run. -/
def Obligations.SequenceErrorWithoutPrerequisite : Prop :=
  ∀ s : State, s.flags.halt = false →
    (∀ a b, a.length = 26 → b.length = 7 → s.flags.idOk = false →
      exec (.ldcal a b) s = .next { s with outbox := s.outbox ++ [[0x02#8]] }) ∧
    (s.flags.calValid = false →
      (∀ k : Byte, k.toNat ≤ 17 → exec (.rdcal k) s = .next { s with outbox := s.outbox ++ [[0x02#8]] }) ∧
      (∀ adcT, exec (.cmpt adcT) s = .next { s with outbox := s.outbox ++ [[0x02#8]] }) ∧
      (∀ adcP, exec (.cmpp adcP) s = .next { s with outbox := s.outbox ++ [[0x02#8]] }) ∧
      (∀ adcH, exec (.cmph adcH) s = .next { s with outbox := s.outbox ++ [[0x02#8]] })) ∧
    (s.flags.calValid = true →
      (∀ adcP, ∃ p, exec (.cmpp adcP) s = .next { s with outbox := s.outbox ++ [0x00#8 :: p] }) ∧
      (∀ adcH, ∃ p, exec (.cmph adcH) s = .next { s with outbox := s.outbox ++ [0x00#8 :: p] }))

/-- R32, R246: once HALT is 1, every later command of a run, legal or not, is refused with Halted and changes nothing, until a reset. -/
def Obligations.HaltIsPermanentUntilReset : Prop :=
  ∀ (fs : List Frame) (s : State), s.flags.halt = true →
    runFrames fs s = .next { s with outbox := s.outbox ++ fs.map (fun _ => [0x05#8]) }

/-! ## CHKID, LDCAL, RDCAL, UNPK -/

/-- R130: a matching byte sets ID_OK and answers OK; another sets HALT and answers IdentityMismatch; a halted block answers
Halted; nothing else changes. -/
def Obligations.ChkidSetsIdOkOrHalts : Prop :=
  ∀ (id : Byte) (s : State),
    (s.flags.halt = true → exec (.chkid id) s = .next { s with outbox := s.outbox ++ [[0x05#8]] }) ∧
    (s.flags.halt = false → id = Config.expectedId → exec (.chkid id) s =
      .next { s with flags := { s.flags with idOk := true }, outbox := s.outbox ++ [[0x00#8]] }) ∧
    (s.flags.halt = false → id ≠ Config.expectedId → exec (.chkid id) s =
      .next { s with flags := { s.flags with halt := true }, outbox := s.outbox ++ [[0x01#8]] })

/-- R131: the first LDCAL after a matching CHKID writes the 18 registers and CAL_VALID, and nothing else; before a matching
CHKID it is SequenceError, after a successful LDCAL CalibrationLocked, in a halted block Halted, with no effect. The byte positions are the spec's general-knowledge layout
(D25; notes/assumptions/17.md). -/
def Obligations.LdcalWritesTheDecodedSet : Prop :=
  ∀ (a b : List Byte) (s : State), a.length = 26 → b.length = 7 →
    let A := fun i => a.getD i 0#8
    let B := fun i => b.getD i 0#8
    (s.flags.halt = true → exec (.ldcal a b) s = .next { s with outbox := s.outbox ++ [[0x05#8]] }) ∧
    (s.flags.halt = false → s.flags.idOk = false →
      exec (.ldcal a b) s = .next { s with outbox := s.outbox ++ [[0x02#8]] }) ∧
    (s.flags.halt = false → s.flags.idOk = true → s.flags.calValid = true →
      exec (.ldcal a b) s = .next { s with outbox := s.outbox ++ [[0x03#8]] }) ∧
    (s.flags.halt = false → s.flags.idOk = true → s.flags.calValid = false → exec (.ldcal a b) s =
      .next { s with
        cal := some
          { temp := { t1 := A 1 ++ A 0, t2 := A 3 ++ A 2, t3 := A 5 ++ A 4 }
            press := { p1 := A 7 ++ A 6, p2 := A 9 ++ A 8, p3 := A 11 ++ A 10, p4 := A 13 ++ A 12, p5 := A 15 ++ A 14,
                       p6 := A 17 ++ A 16, p7 := A 19 ++ A 18, p8 := A 21 ++ A 20, p9 := A 23 ++ A 22 }
            hum := { h1 := A 25, h2 := B 1 ++ B 0, h3 := B 2, h4 := B 3 ++ (B 4).extractLsb' 0 4,
                     h5 := B 5 ++ (B 4).extractLsb' 4 4, h6 := B 6 } }
        flags := { s.flags with calValid := true }
        outbox := s.outbox ++ [[0x00#8]] })

/-- R132 to R143: the integer each temperature and pressure coefficient gets from block A, at the byte positions of the spec's
general-knowledge layout (D25; notes/assumptions/17.md). -/
def Obligations.LdcalTemperatureAndPressureValues : Prop :=
  ∀ (a b : List Byte) (s : State), a.length = 26 → b.length = 7 → s.flags.halt = false → s.flags.idOk = true →
    s.flags.calValid = false → ∃ t c, exec (.ldcal a b) s = .next t ∧ t.cal = some c ∧
      c.temp.t1.toNat = le16At a 0 ∧ c.temp.t2.toInt = foldSigned 16 (le16At a 2) ∧
      c.temp.t3.toInt = foldSigned 16 (le16At a 4) ∧
      c.press.p1.toNat = le16At a 6 ∧ c.press.p2.toInt = foldSigned 16 (le16At a 8) ∧
      c.press.p3.toInt = foldSigned 16 (le16At a 10) ∧ c.press.p4.toInt = foldSigned 16 (le16At a 12) ∧
      c.press.p5.toInt = foldSigned 16 (le16At a 14) ∧ c.press.p6.toInt = foldSigned 16 (le16At a 16) ∧
      c.press.p7.toInt = foldSigned 16 (le16At a 18) ∧ c.press.p8.toInt = foldSigned 16 (le16At a 20) ∧
      c.press.p9.toInt = foldSigned 16 (le16At a 22)

/-- R144 to R150: the integer each humidity coefficient gets, from A[25] and block B, at the byte positions of the spec's
general-knowledge layout (D25; notes/assumptions/17.md); A[24] has no effect. -/
def Obligations.LdcalHumidityValues : Prop :=
  ∀ (a b : List Byte) (s : State), a.length = 26 → b.length = 7 → s.flags.halt = false → s.flags.idOk = true →
    s.flags.calValid = false → ∃ t c, exec (.ldcal a b) s = .next t ∧ t.cal = some c ∧
      c.hum.h1.toNat = byteNat a 25 ∧ c.hum.h2.toInt = foldSigned 16 (le16At b 0) ∧ c.hum.h3.toNat = byteNat b 2 ∧
      c.hum.h4.toInt = foldSigned 12 (16 * byteNat b 3 + byteNat b 4 % 16) ∧
      c.hum.h5.toInt = foldSigned 12 (16 * byteNat b 5 + byteNat b 4 / 16) ∧
      c.hum.h6.toInt = foldSigned 8 (byteNat b 6) ∧
      (∀ v : Byte, exec (.ldcal (a.set 24 v) b) s = exec (.ldcal a b) s)

/-- R24: a calibrated block keeps its 18 registers through every run of frames without a reset, and answers a further LDCAL
CalibrationLocked. -/
def Obligations.CalibrationIsImmutableInASession : Prop :=
  ∀ s : State, s.Inv → s.flags.calValid = true →
    (∀ (fs : List Frame) (t : State), runFrames fs s = .next t → t.cal = s.cal ∧ t.flags.calValid = true) ∧
    (∀ a b, a.length = 26 → b.length = 7 → s.flags.halt = false →
      exec (.ldcal a b) s = .next { s with outbox := s.outbox ++ [[0x03#8]] })

/-- R152: RDCAL answers `CAL[k]`, extended to 32 bits by its kind, as 4 bytes, least significant first, and writes nothing; it is
Halted, IllegalCommand or SequenceError in that order. -/
def Obligations.RdcalAnswersTheCoefficient : Prop :=
  ∀ (k : Byte) (s : State),
    (s.flags.halt = true → exec (.rdcal k) s = .next { s with outbox := s.outbox ++ [[0x05#8]] }) ∧
    (s.flags.halt = false → 17 < k.toNat → exec (.rdcal k) s = .next { s with outbox := s.outbox ++ [[0x04#8]] }) ∧
    (s.flags.halt = false → k.toNat ≤ 17 → s.flags.calValid = false →
      exec (.rdcal k) s = .next { s with outbox := s.outbox ++ [[0x02#8]] }) ∧
    (∀ (c : CalibrationSet) (w : BitVec 32), s.flags.halt = false → s.flags.calValid = true → s.cal = some c →
      (coeffWords c)[k.toNat]? = some w →
      exec (.rdcal k) s = .next { s with outbox := s.outbox ++
        [[0x00#8, w.extractLsb' 0 8, w.extractLsb' 8 8, w.extractLsb' 16 8, w.extractLsb' 24 8]] })

/-- Derived from R152 and R242: RDCAL of a legal index completes in every block that is not halted and has CAL_VALID = 1. -/
def Obligations.RdcalCompletes : Prop :=
  ∀ (k : Byte) (s : State), s.ready → k.toNat ≤ 17 →
    ∃ t p, exec (.rdcal k) s = .next t ∧ t = { s with outbox := s.outbox ++ [0x00#8 :: p] } ∧ p.length = 4

/-- R170 to R173: UNPK answers the three counts of the burst, adc_p and adc_t as 3 bytes and adc_h as 2, least significant
first, and writes nothing; only a halted block faults. -/
def Obligations.UnpkAnswersTheCounts : Prop :=
  ∀ (raw : List Byte) (s : State), raw.length = 8 →
    let R := byteNat raw
    let adcP := R 0 * 4096 + R 1 * 16 + R 2 / 16
    let adcT := R 3 * 4096 + R 4 * 16 + R 5 / 16
    let adcH := R 6 * 256 + R 7
    (s.flags.halt = true → exec (.unpk raw) s = .next { s with outbox := s.outbox ++ [[0x05#8]] }) ∧
    (s.flags.halt = false → exec (.unpk raw) s = .next { s with outbox := s.outbox ++
      [[0x00#8, .ofNat 8 adcP, .ofNat 8 (adcP / 256), .ofNat 8 (adcP / 65536),
        .ofNat 8 adcT, .ofNat 8 (adcT / 256), .ofNat 8 (adcT / 65536), .ofNat 8 adcH, .ofNat 8 (adcH / 256)]] })

/-- R174, which the spec marks as its own derivation: the low nibbles of RAW[2] and RAW[5] have no effect, and every triple of counts is the result of some burst. -/
def Obligations.UnpkIgnoresLowNibblesAndIsOnto : Prop :=
  (∀ (raw : List Byte) (v2 v5 : Byte) (s : State), raw.length = 8 →
    v2.extractLsb' 4 4 = (raw.getD 2 0#8).extractLsb' 4 4 → v5.extractLsb' 4 4 = (raw.getD 5 0#8).extractLsb' 4 4 →
    exec (.unpk ((raw.set 2 v2).set 5 v5)) s = exec (.unpk raw) s) ∧
  (∀ (p t : BitVec 20) (h : BitVec 16), ∃ raw : List Byte, raw.length = 8 ∧
    unpackP raw = p ∧ unpackT raw = t ∧ unpackH raw = h)

/-! ## CMPT, CMPP, CMPH -/

/-- R201, R202: CMPT evaluates the sum s in the rule's order, writes its truncation to `T_FINE`, sets TF_VALID, answers T and the
new `T_FINE`, and changes nothing else; it is Halted or SequenceError with no effect. -/
def Obligations.CmptWritesTemperatureFine : Prop :=
  ∀ (adcT : BitVec 20) (s : State),
    (s.flags.halt = true → exec (.cmpt adcT) s = .next { s with outbox := s.outbox ++ [[0x05#8]] }) ∧
    (s.flags.halt = false → s.flags.calValid = false →
      exec (.cmpt adcT) s = .next { s with outbox := s.outbox ++ [[0x02#8]] }) ∧
    (s.flags.halt = false → s.flags.calValid = true →
      let c := s.calRegs.temp
      let sum := specSum adcT.toNat c.t1.toNat c.t2.toInt c.t3.toInt
      let tf := sum.trunc
      exec (.cmpt adcT) s = .next { s with
        tFine := tf
        flags := { s.flags with tfValid := true }
        outbox := s.outbox ++
          [0x00#8 :: (leBytes 8 (sum.div (F64.ofInt 5120)).bits.toNat ++ leBytes 4 tf.toNat)] })

/-- R26 and R203, which the spec marks as its own derivation: the value CMPT writes to `T_FINE` lies strictly between -2^22 and 2^22, and is the exact truncation of a finite
sum, for every count, every register content and every state. -/
def Obligations.TemperatureFineIsBounded : Prop :=
  ∀ (adcT : BitVec 20) (s t : State), s.ready → exec (.cmpt adcT) s = .next t →
    -4194304 < t.tFine.toInt ∧ t.tFine.toInt < 4194304 ∧
    ∃ sum : F64, sum = specSum adcT.toNat s.calRegs.temp.t1.toNat s.calRegs.temp.t2.toInt s.calRegs.temp.t3.toInt ∧
      sum.isFinite = true ∧ |sum.value| < 4194304 ∧ (sum.div (F64.ofInt 5120)).isFinite = true ∧
      |(sum.div (F64.ofInt 5120)).value| < 4096 / 5 ∧
      t.tFine.toInt = if 0 ≤ sum.value then ⌊sum.value⌋ else ⌈sum.value⌉

/-- Derived from R204, which the spec marks as its own derivation: the brackets, the first term and the square of TFormula are exact: each is the real number its expression names. -/
def Obligations.TemperatureTermsAreExact : Prop :=
  ∀ (adcT : BitVec 20) (t1 t2 : BitVec 16),
    let a := (F64.ofInt adcT.toNat).div (F64.ofInt 16384)
    let b := (F64.ofInt t1.toNat).div (F64.ofInt 1024)
    let e := (F64.ofInt adcT.toNat).div (F64.ofInt 131072)
    let f := (F64.ofInt t1.toNat).div (F64.ofInt 8192)
    a.value = (adcT.toNat : ℚ) / 16384 ∧ b.value = (t1.toNat : ℚ) / 1024 ∧
    e.value = (adcT.toNat : ℚ) / 131072 ∧ f.value = (t1.toNat : ℚ) / 8192 ∧
    (a.sub b).value = a.value - b.value ∧
    ((a.sub b).mul (F64.ofInt t2.toInt)).value = (a.value - b.value) * t2.toInt ∧
    (e.sub f).value = e.value - f.value ∧
    ((e.sub f).mul (e.sub f)).value = (e.value - f.value) ^ 2

/-- R210, R214: CMPP evaluates the default PFormula in the rule's order, answers the NaN of `NAN_BITS` when the denominator
equals zero, and writes nothing; it is Halted or SequenceError with no effect. The default formula is the spec's. -/
def Obligations.CmppAnswersThePressure : Prop :=
  ∀ (adcP : BitVec 20) (s : State),
    (s.flags.halt = true → exec (.cmpp adcP) s = .next { s with outbox := s.outbox ++ [[0x05#8]] }) ∧
    (s.flags.halt = false → s.flags.calValid = false →
      exec (.cmpp adcP) s = .next { s with outbox := s.outbox ++ [[0x02#8]] }) ∧
    (s.flags.halt = false → s.flags.calValid = true →
      let c := s.calRegs.press
      let tf := s.tFine.toInt
      let den := specDenominator c.p1.toNat c.p2.toInt c.p3.toInt tf
      let p := if den.eq (F64.ofInt 0) then Config.nanBits
        else specPressure adcP.toNat den c.p4.toInt c.p5.toInt c.p6.toInt c.p7.toInt c.p8.toInt c.p9.toInt tf
      exec (.cmpp adcP) s = .next { s with outbox := s.outbox ++ [0x00#8 :: leBytes 8 p.bits.toNat] })

/-- Derived from R211: with a denominator equal to zero (P1 = 0 always makes it so) CMPP answers status OK and the sentinel, whatever pattern
`NAN_BITS` is, and writes nothing; the machine's own `NAN_BITS` is a NaN. -/
def Obligations.ZeroDenominatorAnswersNaN : Prop :=
  Config.nanBits.isNaN = true ∧
  ∀ (nan : F64) (adcP : BitVec 20) (s : State), s.ready →
    ((pDenominator .ieee s.calRegs.press s.tFine).eq (F64.ofInt 0) = true ∨ s.calRegs.press.p1 = 0#16) →
    compensatePressure (defaultPFormula .ieee nan) adcP s =
      .next { s with outbox := s.outbox ++ [0x00#8 :: leBytes 8 nan.bits.toNat] } ∧
    exec (.cmpp adcP) s =
      .next { s with outbox := s.outbox ++ [0x00#8 :: leBytes 8 Config.nanBits.bits.toNat] }

/-- R216 (b) and R189, which the spec marks as its own derivation: with a denominator not equal to zero the pressure is a finite number, for every count, coefficient and
`T_FINE`: no infinity and no NaN arises. -/
def Obligations.PressureIsFiniteForNonzeroDenominator : Prop :=
  ∀ (nan : F64) (adcP : BitVec 20) (c : PressCoeffs) (tf : BitVec 32),
    (pDenominator .ieee c tf).eq (F64.ofInt 0) = false → (defaultPFormula .ieee nan adcP c tf).isFinite = true

/-- R220, R222: CMPH evaluates the default HFormula in the rule's order, clamps it, and writes nothing; it is Halted or
SequenceError with no effect. The default formula is the spec's. -/
def Obligations.CmphAnswersTheHumidity : Prop :=
  ∀ (adcH : BitVec 16) (s : State),
    (s.flags.halt = true → exec (.cmph adcH) s = .next { s with outbox := s.outbox ++ [[0x05#8]] }) ∧
    (s.flags.halt = false → s.flags.calValid = false →
      exec (.cmph adcH) s = .next { s with outbox := s.outbox ++ [[0x02#8]] }) ∧
    (s.flags.halt = false → s.flags.calValid = true →
      let c := s.calRegs.hum
      let h := specHumidity adcH.toNat c.h1.toNat c.h2.toInt c.h3.toNat c.h4.toInt c.h5.toInt c.h6.toInt s.tFine.toInt
      let r := if h.gt (F64.ofInt 100) then F64.ofInt 100 else if h.lt (F64.ofInt 0) then F64.ofInt 0 else h
      exec (.cmph adcH) s = .next { s with outbox := s.outbox ++ [0x00#8 :: leBytes 8 r.bits.toNat] })

/-- Derived from R221 and from R223, which the spec marks as its own derivation: the humidity CMPH answers is a finite number in
[0.0, 100.0] for every count, register content and state; above 100 it is exactly 100.0, below 0 exactly +0.0, otherwise the
unclamped value. -/
def Obligations.HumidityIsClamped : Prop :=
  ∀ (adcH : BitVec 16) (s : State), s.ready → ∃ r h : F64,
    exec (.cmph adcH) s = .next { s with outbox := s.outbox ++ [0x00#8 :: leBytes 8 r.bits.toNat] } ∧
    h = defaultHFormula .ieee adcH s.calRegs.hum s.tFine ∧ h.isFinite = true ∧
    r.isFinite = true ∧ 0 ≤ r.value ∧ r.value ≤ 100 ∧
    (100 < h.value → r = ⟨0x4059000000000000#64⟩) ∧ (h.value < 0 → r = ⟨0x0000000000000000#64⟩) ∧
    (0 ≤ h.value → h.value ≤ 100 → r = h)

/-- R212: CMPP and CMPH before any CMPT compute with t_fine = 0 and answer OK. -/
def Obligations.ZeroCarryBeforeAnyCmpt : Prop :=
  ∀ s : State, s.Inv → s.ready → s.flags.tfValid = false →
    (∀ adcP, exec (.cmpp adcP) s = .next { s with outbox := s.outbox ++
      [0x00#8 :: leBytes 8 (defaultPFormula .ieee Config.nanBits adcP s.calRegs.press 0#32).bits.toNat] }) ∧
    (∀ adcH, exec (.cmph adcH) s = .next { s with outbox := s.outbox ++
      [0x00#8 :: leBytes 8 (clampHumidity .ieee (defaultHFormula .ieee adcH s.calRegs.hum 0#32)).bits.toNat] })

/-- R231, with R213 and R193: whatever the arithmetic, PFormula and HFormula are, CMPP and CMPH write no state and answer alike in
two blocks with the same group of coefficients and the same `T_FINE`, and what CMPT answers and writes depends on the count and
the temperature coefficients only, not on the `T_FINE` it finds; so does the machine's own CMPT. -/
def Obligations.CompensationDependsOnlyOnItsInputs : Prop :=
  ∀ s1 s2 : State, s1.ready → s2.ready →
    (∀ (pf : PFormula) adcP, s1.calRegs.press = s2.calRegs.press → s1.tFine = s2.tFine →
      ∃ p, compensatePressure pf adcP s1 = .next { s1 with outbox := s1.outbox ++ [p] } ∧
        compensatePressure pf adcP s2 = .next { s2 with outbox := s2.outbox ++ [p] }) ∧
    (∀ (ar : Binary64) (hf : HFormula) adcH, s1.calRegs.hum = s2.calRegs.hum → s1.tFine = s2.tFine →
      ∃ p, compensateHumidity ar hf adcH s1 = .next { s1 with outbox := s1.outbox ++ [p] } ∧
        compensateHumidity ar hf adcH s2 = .next { s2 with outbox := s2.outbox ++ [p] }) ∧
    (∀ (ar : Binary64) adcT, s1.calRegs.temp = s2.calRegs.temp → ∃ p t1 t2,
      compensateTemperature ar adcT s1 = .next t1 ∧ compensateTemperature ar adcT s2 = .next t2 ∧
      t1.tFine = t2.tFine ∧ t1.outbox = s1.outbox ++ [p] ∧ t2.outbox = s2.outbox ++ [p]) ∧
    (∀ adcT, s1.calRegs.temp = s2.calRegs.temp → ∃ p t1 t2, exec (.cmpt adcT) s1 = .next t1 ∧
      exec (.cmpt adcT) s2 = .next t2 ∧ t1.tFine = t2.tFine ∧ t1.outbox = s1.outbox ++ [p] ∧ t2.outbox = s2.outbox ++ [p])

/-! ## Whole-machine rules -/

/-- What each command leaves unchanged when it answers a next state (derived from R22, R25, R27): CHKID writes only ID_OK or HALT, LDCAL only `CAL`
and CAL_VALID, CMPT only `T_FINE` and TF_VALID, and RDCAL, UNPK, CMPP and CMPH nothing; each adds one response. -/
def Obligations.CommandFrames : Prop :=
  ∀ (i : Instr) (s t : State), exec i s = .next t →
    t.inbox = s.inbox ∧ (∃ r, t.outbox = s.outbox ++ [r]) ∧
    match i with
    | .chkid _ => t.cal = s.cal ∧ t.tFine = s.tFine ∧ t.flags.calValid = s.flags.calValid ∧ t.flags.tfValid = s.flags.tfValid
    | .ldcal _ _ => t.tFine = s.tFine ∧ t.flags.idOk = s.flags.idOk ∧ t.flags.tfValid = s.flags.tfValid ∧
        t.flags.halt = s.flags.halt
    | .cmpt _ => t.cal = s.cal ∧ t.flags.idOk = s.flags.idOk ∧ t.flags.calValid = s.flags.calValid ∧
        t.flags.halt = s.flags.halt
    | .rdcal _ => s.sameBlock t
    | .unpk _ => s.sameBlock t
    | .cmpp _ => s.sameBlock t
    | .cmph _ => s.sameBlock t

/-- The invariant of R37, which the spec marks as its own derivation, holds at reset. -/
def Obligations.InvariantHoldsAtReset : Prop := State.reset.Inv

/-- R37, which the spec marks as its own derivation: every step, of a frame or of the reset event, keeps the invariant, from every state that meets it. -/
def Obligations.EveryStepKeepsTheInvariant : Prop :=
  ∀ s t : State, s.Inv → step s = .next t → t.Inv

/-- R37 (f) and R271, which the spec marks as its own derivation: no flag goes from 1 to 0 in a step that is not a reset, and a calibrated block's registers stay. -/
def Obligations.OnlyResetClearsAFlag : Prop :=
  ∀ s t : State, step s = .next t → (∀ rest, s.inbox ≠ .reset :: rest) →
    s.flags.le t.flags ∧ (s.flags.calValid = true → t.cal = s.cal)

/-- Derived from R66: RDCAL, UNPK, CMPP and CMPH, and CMPT with the same operand, presented a second time in the state they leave, answer the same
frame again and change nothing more. -/
def Obligations.RepeatedCommandAnswersAlike : Prop :=
  ∀ (i : Instr) (s t : State), (i.opcode ≠ .chkid ∧ i.opcode ≠ .ldcal) → exec i s = .next t →
    ∃ r, t.outbox = s.outbox ++ [r] ∧ exec i t = .next { t with outbox := t.outbox ++ [r] }

/-- Derived from R34 and R274: after CMPT the block carries that count's temperature-fine value, and no later command but another CMPT changes
it. -/
def Obligations.CarryLastsUntilTheNextCmpt : Prop :=
  (∀ (adcT : BitVec 20) (s t : State), s.ready → exec (.cmpt adcT) s = .next t → t.carries adcT) ∧
  (∀ (adcT : BitVec 20) (i : Instr) (s t : State), s.Inv → s.carries adcT → (∀ a, i ≠ .cmpt a) → exec i s = .next t →
    t.carries adcT)

/-- Derived from R101 and R273: INIT with the expected byte and two blocks leaves a block that is not halted and not yet calibrated checked and
calibrated; with another byte it presents no LDCAL and leaves HALT set. -/
def Obligations.InitChecksThenCalibrates : Prop :=
  ∀ (id : Byte) (a b : List Byte) (s : State), a.length = 26 → b.length = 7 → s.flags.halt = false →
    s.flags.calValid = false →
    (id = Config.expectedId → runInit id a b s = .next { s with
      cal := some (decodeBlocks a b), flags := { s.flags with idOk := true, calValid := true },
      outbox := s.outbox ++ [[0x00#8], [0x00#8]] }) ∧
    (id ≠ Config.expectedId → runInit id a b s = .next { s with
      flags := { s.flags with halt := true }, outbox := s.outbox ++ [[0x01#8]] })

/-- R232, which the spec marks as its own derivation, of the expansion of R102: CYCLE, by copying the bytes of the UNPK response into the frames of CMPT, CMPP and CMPH, answers the burst's three
counts, then T and t_fine of its temperature count, then P and H computed with that t_fine; it leaves that t_fine and
TF_VALID, and nothing of it depends on the `T_FINE` or on what came before. -/
def Obligations.CycleIsAFunctionOfTheBurst : Prop :=
  ∀ (raw : List Byte) (s : State), raw.length = 8 → s.ready →
    let sum := tSum .ieee (unpackT raw) s.calRegs.temp
    let tf := sum.trunc
    runCycle raw s = .next { s with
      tFine := tf
      flags := { s.flags with tfValid := true }
      outbox := s.outbox ++
        [0x00#8 :: (leBytes 3 (unpackP raw).toNat ++ leBytes 3 (unpackT raw).toNat ++ leBytes 2 (unpackH raw).toNat),
         0x00#8 :: (leBytes 8 (sum.div (F64.ofInt 5120)).bits.toNat ++ leBytes 4 tf.toNat),
         0x00#8 :: leBytes 8 (defaultPFormula .ieee Config.nanBits (unpackP raw) s.calRegs.press tf).bits.toNat,
         0x00#8 :: leBytes 8 (clampHumidity .ieee (defaultHFormula .ieee (unpackH raw) s.calRegs.hum tf)).bits.toNat] }

/-! ## Encoding -/

/-- Derived from the encodings: words written out from R83 to R89 and R104 decode to the commands they stand for. -/
def Obligations.FramesOfTheSpecDecode : Prop :=
  decode [0x01#8, 0x60#8] = .ok (.chkid 0x60#8) ∧ decode [0x03#8, 0x11#8] = .ok (.rdcal 17#8) ∧
  decode [0x04#8, 0x65#8, 0x5A#8, 0xC0#8, 0x7E#8, 0xED#8, 0x00#8, 0x75#8, 0x30#8] =
    .ok (.unpk [0x65#8, 0x5A#8, 0xC0#8, 0x7E#8, 0xED#8, 0x00#8, 0x75#8, 0x30#8]) ∧
  decode [0x05#8, 0xD0#8, 0xEE#8, 0x07#8] = .ok (.cmpt 519888#20) ∧
  decode [0x06#8, 0xAC#8, 0x55#8, 0x06#8] = .ok (.cmpp 415148#20) ∧
  decode [0x07#8, 0x30#8, 0x75#8] = .ok (.cmph 30000#16)

/-- Derived from R81 to R94: decoding the frame of a well-formed command gives it back, for every command and every operand value. -/
def Obligations.DecodeOfEncode : Prop :=
  ∀ i : Instr, i.wellFormed = true → decode (encode i) = .ok i

/-- Derived from R81 and R99: a command has one frame: what decodes is well-formed and is that command's frame, bit for bit. -/
def Obligations.EncodeOfDecode : Prop :=
  ∀ (f : Frame) (i : Instr), decode f = .ok i → i.wellFormed = true ∧ encode i = f

/-- R98, with R95 to R97: exactly which frames decode rejects, and by which check. -/
def Obligations.DecodeRejectsByTheFirstFailingCheck : Prop :=
  decode [] = .error .emptyFrame ∧
  ∀ (f0 : Byte) (p : List Byte),
    (f0.toNat = 0 ∨ 8 ≤ f0.toNat → decode (f0 :: p) = .error .unknownOpcode) ∧
    (∀ o : Opcode, f0 = o.code →
      (p.length + 1 ≠ o.length → decode (f0 :: p) = .error .wrongLength) ∧
      (p.length + 1 = o.length →
        (o = .rdcal ∧ 17 < byteNat p 0 ∨ (o = .cmpt ∨ o = .cmpp) ∧ 16 ≤ byteNat p 2 →
          decode (f0 :: p) = .error .reservedOperand) ∧
        (¬ (o = .rdcal ∧ 17 < byteNat p 0 ∨ (o = .cmpt ∨ o = .cmpp) ∧ 16 ≤ byteNat p 2) →
          ∃ i, decode (f0 :: p) = .ok i ∧ i.opcode = o)))

/-- Derived from R64: byte i of a multi-byte value is its bits 8i+7 to 8i. -/
def Obligations.LittleEndianBytes : Prop :=
  ∀ n v i : Nat, i < n → (leBytes n v).length = n ∧ (leBytes n v)[i]? = some (BitVec.ofNat 8 (v / 256 ^ i))

/-! ## Field extraction -/

/-- R111 to R118: the integer each extraction operation gives. -/
def Obligations.ExtractionValues : Prop :=
  ∀ b0 b1 b2 : Byte,
    let n0 := b0.toNat
    let n1 := b1.toNat
    let n2 := b2.toNat
    (extU8 b0).toNat = n0 ∧
    (extS8 b0).toInt = (if 128 ≤ n0 then (n0 : Int) - 256 else n0) ∧
    (extU16LE b0 b1).toNat = n0 + 256 * n1 ∧
    (extS16LE b0 b1).toInt = (if 32768 ≤ n0 + 256 * n1 then ((n0 + 256 * n1 : Nat) : Int) - 65536 else (n0 + 256 * n1 : Nat)) ∧
    (extS12A b0 b1).toInt =
      (if 2048 ≤ 16 * n0 + n1 % 16 then ((16 * n0 + n1 % 16 : Nat) : Int) - 4096 else (16 * n0 + n1 % 16 : Nat)) ∧
    (extS12B b0 b1).toInt =
      (if 2048 ≤ 16 * n1 + n0 / 16 then ((16 * n1 + n0 / 16 : Nat) : Int) - 4096 else (16 * n1 + n0 / 16 : Nat)) ∧
    (extU20BE b0 b1 b2).toNat = n0 * 4096 + n1 * 16 + n2 / 16 ∧
    (extU16BE b0 b1).toNat = n0 * 256 + n1

/-- R120: for N = 8, 12, 16 and every N-bit pattern v, built from its bytes as R112 and R114 to R116 build it, the conditional
subtraction is what the model's extraction reads as two's complement, so is its sign extension to every wider M, and so is the
32-bit word of the extraction's kind and of every signed coefficient. -/
def Obligations.FoldIsTwosComplement : Prop :=
  (∀ (b0 b1 : Byte) (m : Nat),
    let v8 := b0.toNat
    let v16 := b0.toNat + 256 * b1.toNat
    let v12A := 16 * b0.toNat + b1.toNat % 16
    let v12B := 16 * b1.toNat + b0.toNat / 16
    (extS8 b0).toInt = foldSigned 8 v8 ∧ (8 ≤ m → ((extS8 b0).signExtend m).toInt = foldSigned 8 v8) ∧
    (extS16LE b0 b1).toInt = foldSigned 16 v16 ∧ (16 ≤ m → ((extS16LE b0 b1).signExtend m).toInt = foldSigned 16 v16) ∧
    (extS12A b0 b1).toInt = foldSigned 12 v12A ∧ (12 ≤ m → ((extS12A b0 b1).signExtend m).toInt = foldSigned 12 v12A) ∧
    (extS12B b0 b1).toInt = foldSigned 12 v12B ∧ (12 ≤ m → ((extS12B b0 b1).signExtend m).toInt = foldSigned 12 v12B) ∧
    (extend32 .s8 (extS8 b0)).toInt = foldSigned 8 v8 ∧ (extend32 .s16le (extS16LE b0 b1)).toInt = foldSigned 16 v16 ∧
    (extend32 .s12a (extS12A b0 b1)).toInt = foldSigned 12 v12A ∧
    (extend32 .s12b (extS12B b0 b1)).toInt = foldSigned 12 v12B) ∧
  (∀ c : CalibrationSet,
    (coeffWord c .t2).toInt = foldSigned 16 c.temp.t2.toNat ∧ (coeffWord c .t3).toInt = foldSigned 16 c.temp.t3.toNat ∧
    (coeffWord c .p2).toInt = foldSigned 16 c.press.p2.toNat ∧ (coeffWord c .p3).toInt = foldSigned 16 c.press.p3.toNat ∧
    (coeffWord c .p4).toInt = foldSigned 16 c.press.p4.toNat ∧ (coeffWord c .p5).toInt = foldSigned 16 c.press.p5.toNat ∧
    (coeffWord c .p6).toInt = foldSigned 16 c.press.p6.toNat ∧ (coeffWord c .p7).toInt = foldSigned 16 c.press.p7.toNat ∧
    (coeffWord c .p8).toInt = foldSigned 16 c.press.p8.toNat ∧ (coeffWord c .p9).toInt = foldSigned 16 c.press.p9.toNat ∧
    (coeffWord c .h2).toInt = foldSigned 16 c.hum.h2.toNat ∧ (coeffWord c .h4).toInt = foldSigned 12 c.hum.h4.toNat ∧
    (coeffWord c .h5).toInt = foldSigned 12 c.hum.h5.toNat ∧ (coeffWord c .h6).toInt = foldSigned 8 c.hum.h6.toNat)

/-- R122: the sign of H4 depends only on bit 7 of its high byte, and so does that of H5: the shared byte gives neither a sign. -/
def Obligations.PackedSignsAreIndependent : Prop :=
  ∀ hb nb hb' : Byte,
    ((extS12A hb nb).toInt < 0 ↔ 128 ≤ hb.toNat) ∧ ((extS12B nb hb').toInt < 0 ↔ 128 ≤ hb'.toNat)

/-- Derived from R121: every integer in range comes back from the bytes of its pattern, for the four signed kinds. -/
def Obligations.ExtractionRoundTrip : Prop :=
  (∀ s : Int, -32768 ≤ s → s ≤ 32767 →
    (extS16LE (BitVec.ofNat 8 (s % 65536).toNat) (BitVec.ofNat 8 ((s % 65536).toNat / 256))).toInt = s) ∧
  (∀ s : Int, -128 ≤ s → s ≤ 127 → (extS8 (BitVec.ofNat 8 (s % 256).toNat)).toInt = s) ∧
  (∀ s : Int, -2048 ≤ s → s ≤ 2047 → ∀ other : Nat, other < 16 →
    (extS12A (BitVec.ofNat 8 ((s % 4096).toNat / 16)) (BitVec.ofNat 8 (16 * other + (s % 4096).toNat % 16))).toInt = s ∧
    (extS12B (BitVec.ofNat 8 (16 * ((s % 4096).toNat % 16) + other)) (BitVec.ofNat 8 ((s % 4096).toNat / 16))).toInt = s)

/-! ## Floating point -/

/-- R182, which the spec marks as its own derivation: an integer of magnitude below 2^53 converts exactly; F(0) is +0.0. -/
def Obligations.IntegerConversionIsExact : Prop :=
  (∀ i : Int, i.natAbs < 2 ^ 53 → (F64.ofInt i).isFinite = true ∧ (F64.ofInt i).value = i) ∧
  (F64.ofInt 0).bits = 0x0000000000000000#64

/-- Derived from R181: each of the four operations answers the exact real result rounded once, to nearest, ties to even, below the
overflow bound. -/
def Obligations.ArithmeticRoundsOnceToNearestEven : Prop :=
  ∀ x y : F64, x.isFinite = true → y.isFinite = true →
    (|x.value + y.value| < F64.overflowBound → F64.IsRounded (x.value + y.value) (x.add y)) ∧
    (|x.value - y.value| < F64.overflowBound → F64.IsRounded (x.value - y.value) (x.sub y)) ∧
    (|x.value * y.value| < F64.overflowBound → F64.IsRounded (x.value * y.value) (x.mul y)) ∧
    (y.value ≠ 0 → |x.value / y.value| < F64.overflowBound → F64.IsRounded (x.value / y.value) (x.div y))

/-- Derived from R189: from the overflow bound on, the result of a multiplication is the infinity of the product's sign. -/
def Obligations.OverflowGivesInfinity : Prop :=
  ∀ x y : F64, x.isFinite = true → y.isFinite = true → F64.overflowBound ≤ |x.value * y.value| →
    (x.mul y).isInf = true ∧ (x.mul y).sign = decide (x.value * y.value < 0)

/-- Derived from R183, R184 and R185: the sign of an exact zero sum, and of every product. -/
def Obligations.SignsOfZeroResults : Prop :=
  ∀ x y : F64, x.isFinite = true → y.isFinite = true →
    (x.value + y.value = 0 → (x.add y).value = 0 ∧ (x.add y).sign = (x.sign && y.sign)) ∧
    (x.value - y.value = 0 → (x.sub y).value = 0 ∧ (x.sub y).sign = (x.sign && !y.sign)) ∧
    (x.mul y).sign = (x.sign != y.sign) ∧
    (y.value ≠ 0 → (x.div y).sign = (x.sign != y.sign))

/-- Derived from R186: the comparisons are those of the real numbers, so +0.0 equals -0.0; with a NaN operand all three are false. -/
def Obligations.ComparisonsAreThoseOfTheReals : Prop :=
  ∀ x y : F64,
    (x.isFinite = true → y.isFinite = true →
      (x.eq y = true ↔ x.value = y.value) ∧ (x.lt y = true ↔ x.value < y.value) ∧ (x.gt y = true ↔ y.value < x.value)) ∧
    (x.isNaN = true ∨ y.isNaN = true → x.eq y = false ∧ x.lt y = false ∧ x.gt y = false)

/-- R187: below 2^31 in magnitude, `trunc` discards the fraction, toward zero. -/
def Obligations.TruncationIsTowardZero : Prop :=
  ∀ x : F64, x.isFinite = true → |x.value| < 2 ^ 31 →
    x.trunc.toInt = if 0 ≤ x.value then ⌊x.value⌋ else ⌈x.value⌉

/-! ## Any binary64 implementation (R193) -/

/-- Derived from R193 and R180 to R187: the machine's own arithmetic meets what those rules say of a binary64 implementation, and
whatever meets them is monotone and exact on exactly representable results. -/
def Obligations.IeeeArithmeticMeetsTheRules : Prop :=
  Binary64.ieee.Rules ∧ ∀ ar : Binary64, ar.Rules → ar.MonotoneExact

/-- Derived from R193 and R203, which the spec marks as its own derivation: the bound on `T_FINE` for any implementation that is
monotone and exact on exactly representable results. -/
def Obligations.TemperatureFineBoundForAnyArithmetic : Prop :=
  ∀ (ar : Binary64) (adcT : BitVec 20) (s : State), ar.MonotoneExact → s.ready →
    let sum := tSum ar adcT s.calRegs.temp
    sum.isFinite = true ∧ |sum.value| < 4194304 ∧
    ∃ t, compensateTemperature ar adcT s = .next t ∧ t.tFine = ar.trunc sum ∧ t.flags = { s.flags with tfValid := true } ∧
      -4194304 < t.tFine.toInt ∧ t.tFine.toInt < 4194304

/-- Derived from R193, R211 and R214: the guard for a zero denominator, for any arithmetic and any sentinel: when the computed
denominator equals zero the answer is the sentinel with status OK, otherwise the quotient; no state is written. P1 = 0 makes it
zero for any implementation that is monotone and exact on exactly representable results. -/
def Obligations.ZeroDenominatorGuardForAnyArithmetic : Prop :=
  ∀ (ar : Binary64) (nan : F64) (adcP : BitVec 20) (s : State), s.ready →
    let c := s.calRegs.press
    let den := pDenominator ar c s.tFine
    (ar.eq den (ar.ofInt 0) = true → compensatePressure (defaultPFormula ar nan) adcP s =
      .next { s with outbox := s.outbox ++ [0x00#8 :: leBytes 8 nan.bits.toNat] }) ∧
    (ar.eq den (ar.ofInt 0) = false → compensatePressure (defaultPFormula ar nan) adcP s = .next { s with
      outbox := s.outbox ++ [0x00#8 :: leBytes 8 (ar.div (pPascal ar adcP c s.tFine den) (ar.ofInt 100)).bits.toNat] }) ∧
    (ar.MonotoneExact → c.p1 = 0#16 → ar.eq den (ar.ofInt 0) = true)

/-- Derived from R193, R221 and R223: the clamp for any implementation that is monotone and exact on exactly representable results
and for any HFormula: the answer lies in [0.0, 100.0] whatever the formula gives, unless it gives a NaN, which passes unchanged;
no state is written. -/
def Obligations.HumidityClampForAnyArithmetic : Prop :=
  ∀ (ar : Binary64) (hf : HFormula) (adcH : BitVec 16) (s : State), ar.MonotoneExact → s.ready →
    let h := hf adcH s.calRegs.hum s.tFine
    ∃ r : F64, compensateHumidity ar hf adcH s =
        .next { s with outbox := s.outbox ++ [0x00#8 :: leBytes 8 r.bits.toNat] } ∧
      (h.isNaN = true → r = h) ∧
      (h.isNaN = false → r.isFinite = true ∧ 0 ≤ r.value ∧ r.value ≤ 100) ∧
      (h.isFinite = true → 0 ≤ h.value → h.value ≤ 100 → r = h) ∧
      (h.isFinite = true → 100 < h.value → r.value = 100) ∧ (h.isFinite = true → h.value < 0 → r.value = 0) ∧
      (h.isInf = true → r.value = if h.sign then 0 else 100)

end Statements
end

