-- ==== Sys2Proof/Laws/Decode.lean ====
section
/-! SUPPORT. The lemmas of the byte order and of the opcode map that proofs about encoding cite. -/

namespace Sys2Proof

@[simp] theorem leBytes_length (n v : Nat) : (leBytes n v).length = n := by
  induction n generalizing v with
  | zero => rfl
  | succ n ih => simp [leBytes, ih]

/-- The map of R104, row by row: each opcode's byte selects that opcode. -/
@[simp] theorem ofByte?_code (o : Opcode) : Opcode.ofByte? o.code = some o := by
  cases o <;> decide

/-- Only an opcode's own byte selects it (R82: all eight bits are compared). -/
theorem code_of_ofByte? {b : Byte} {o : Opcode} (h : Opcode.ofByte? b = some o) : o.code = b := by
  simpa using List.find?_some h

theorem leBytes_three (v : Nat) :
    leBytes 3 v = [BitVec.ofNat 8 v, BitVec.ofNat 8 (v / 256), BitVec.ofNat 8 (v / 256 / 256)] := rfl

theorem leBytes_two (v : Nat) : leBytes 2 v = [BitVec.ofNat 8 v, BitVec.ofNat 8 (v / 256)] := rfl

end Sys2Proof
end

