-- ==== Sys2Proof/Laws/State.lean ====
section
/-! SUPPORT. One lemma per field of State and per update, true by definition, so that no later proof unfolds an update. -/

namespace Sys2Proof.Machine

variable (s : State)

@[simp] theorem setIdOk_cal : s.setIdOk.cal = s.cal := (rfl)
@[simp] theorem setIdOk_tFine : s.setIdOk.tFine = s.tFine := (rfl)
@[simp] theorem setIdOk_flags : s.setIdOk.flags = { s.flags with idOk := true } := (rfl)
@[simp] theorem setIdOk_inbox : s.setIdOk.inbox = s.inbox := (rfl)
@[simp] theorem setIdOk_outbox : s.setIdOk.outbox = s.outbox := (rfl)

@[simp] theorem setCalValid_cal : s.setCalValid.cal = s.cal := (rfl)
@[simp] theorem setCalValid_tFine : s.setCalValid.tFine = s.tFine := (rfl)
@[simp] theorem setCalValid_flags : s.setCalValid.flags = { s.flags with calValid := true } := (rfl)
@[simp] theorem setCalValid_inbox : s.setCalValid.inbox = s.inbox := (rfl)
@[simp] theorem setCalValid_outbox : s.setCalValid.outbox = s.outbox := (rfl)

@[simp] theorem setTfValid_cal : s.setTfValid.cal = s.cal := (rfl)
@[simp] theorem setTfValid_tFine : s.setTfValid.tFine = s.tFine := (rfl)
@[simp] theorem setTfValid_flags : s.setTfValid.flags = { s.flags with tfValid := true } := (rfl)
@[simp] theorem setTfValid_inbox : s.setTfValid.inbox = s.inbox := (rfl)
@[simp] theorem setTfValid_outbox : s.setTfValid.outbox = s.outbox := (rfl)

@[simp] theorem setHalt_cal : s.setHalt.cal = s.cal := (rfl)
@[simp] theorem setHalt_tFine : s.setHalt.tFine = s.tFine := (rfl)
@[simp] theorem setHalt_flags : s.setHalt.flags = { s.flags with halt := true } := (rfl)
@[simp] theorem setHalt_inbox : s.setHalt.inbox = s.inbox := (rfl)
@[simp] theorem setHalt_outbox : s.setHalt.outbox = s.outbox := (rfl)

@[simp] theorem writeCal_cal (c : CalibrationSet) : (s.writeCal c).cal = some c := (rfl)
@[simp] theorem writeCal_tFine (c : CalibrationSet) : (s.writeCal c).tFine = s.tFine := (rfl)
@[simp] theorem writeCal_flags (c : CalibrationSet) : (s.writeCal c).flags = s.flags := (rfl)
@[simp] theorem writeCal_inbox (c : CalibrationSet) : (s.writeCal c).inbox = s.inbox := (rfl)
@[simp] theorem writeCal_outbox (c : CalibrationSet) : (s.writeCal c).outbox = s.outbox := (rfl)

@[simp] theorem writeTFine_cal (v : BitVec 32) : (s.writeTFine v).cal = s.cal := (rfl)
@[simp] theorem writeTFine_tFine (v : BitVec 32) : (s.writeTFine v).tFine = v := (rfl)
@[simp] theorem writeTFine_flags (v : BitVec 32) : (s.writeTFine v).flags = s.flags := (rfl)
@[simp] theorem writeTFine_inbox (v : BitVec 32) : (s.writeTFine v).inbox = s.inbox := (rfl)
@[simp] theorem writeTFine_outbox (v : BitVec 32) : (s.writeTFine v).outbox = s.outbox := (rfl)

@[simp] theorem respond_cal (r : Frame) : (s.respond r).cal = s.cal := (rfl)
@[simp] theorem respond_tFine (r : Frame) : (s.respond r).tFine = s.tFine := (rfl)
@[simp] theorem respond_flags (r : Frame) : (s.respond r).flags = s.flags := (rfl)
@[simp] theorem respond_inbox (r : Frame) : (s.respond r).inbox = s.inbox := (rfl)
@[simp] theorem respond_outbox (r : Frame) : (s.respond r).outbox = s.outbox ++ [r] := (rfl)

@[simp] theorem presentFirst_cal (e : HostEvent) : (s.presentFirst e).cal = s.cal := (rfl)
@[simp] theorem presentFirst_tFine (e : HostEvent) : (s.presentFirst e).tFine = s.tFine := (rfl)
@[simp] theorem presentFirst_flags (e : HostEvent) : (s.presentFirst e).flags = s.flags := (rfl)
@[simp] theorem presentFirst_inbox (e : HostEvent) : (s.presentFirst e).inbox = e :: s.inbox := (rfl)
@[simp] theorem presentFirst_outbox (e : HostEvent) : (s.presentFirst e).outbox = s.outbox := (rfl)

@[simp] theorem applyReset_cal : s.applyReset.cal = none := (rfl)
@[simp] theorem applyReset_tFine : s.applyReset.tFine = 0#32 := (rfl)
@[simp] theorem applyReset_flags : s.applyReset.flags = ⟨false, false, false, false⟩ := (rfl)
@[simp] theorem applyReset_inbox : s.applyReset.inbox = s.inbox := (rfl)
@[simp] theorem applyReset_outbox : s.applyReset.outbox = s.outbox := (rfl)

@[simp] theorem reset_cal : State.reset.cal = none := (rfl)
@[simp] theorem reset_tFine : State.reset.tFine = 0#32 := (rfl)
@[simp] theorem reset_flags : State.reset.flags = ⟨false, false, false, false⟩ := (rfl)
@[simp] theorem reset_inbox : State.reset.inbox = [] := (rfl)
@[simp] theorem reset_outbox : State.reset.outbox = [] := (rfl)

/-- The registers a command reads are those last written. -/
@[simp] theorem calRegs_writeCal (c : CalibrationSet) : (s.writeCal c).calRegs = c := (rfl)

/-- The registers depend on `cal` alone. -/
theorem calRegs_congr {s t : State} (h : s.cal = t.cal) : s.calRegs = t.calRegs := by
  simp [State.calRegs, h]

theorem calRegs_of_some {s : State} {c : CalibrationSet} (h : s.cal = some c) : s.calRegs = c := by
  simp [State.calRegs, h]

@[simp] theorem calRegs_setIdOk : s.setIdOk.calRegs = s.calRegs := (rfl)
@[simp] theorem calRegs_setCalValid : s.setCalValid.calRegs = s.calRegs := (rfl)
@[simp] theorem calRegs_setTfValid : s.setTfValid.calRegs = s.calRegs := (rfl)
@[simp] theorem calRegs_setHalt : s.setHalt.calRegs = s.calRegs := (rfl)
@[simp] theorem calRegs_writeTFine (v : BitVec 32) : (s.writeTFine v).calRegs = s.calRegs := (rfl)
@[simp] theorem calRegs_respond (r : Frame) : (s.respond r).calRegs = s.calRegs := (rfl)

end Sys2Proof.Machine
end

