-- ==== Sys2Proof/Laws/Ops.lean ====
section
/-! SUPPORT. One lemma per shared operation, saying everything it can answer, and the inversion of exec and of runFrame. -/

namespace Sys2Proof.Machine

variable {s : State}

/-- A fault answers a next state: its effect, and one response of one byte. -/
theorem raise_eq (f : BlockFault) (s : State) : raise f s = .next ((f.effect s).respond [f.code]) := (rfl)

theorem ok_eq (p : List Byte) (s : State) : ok p s = .next (s.respond (0x00#8 :: p)) := (rfl)

@[simp] theorem effect_sequenceError (s : State) : BlockFault.effect .sequenceError s = s := (rfl)
@[simp] theorem effect_calibrationLocked (s : State) : BlockFault.effect .calibrationLocked s = s := (rfl)
@[simp] theorem effect_illegalCommand (s : State) : BlockFault.effect .illegalCommand s = s := (rfl)
@[simp] theorem effect_halted (s : State) : BlockFault.effect .halted s = s := (rfl)
@[simp] theorem effect_identityMismatch (s : State) : BlockFault.effect .identityMismatch s = s.setHalt := (rfl)

theorem unlessHalted_of_halted (h : s.flags.halt = true) (k : State → Result) :
    unlessHalted s k = raise .halted s := by simp [unlessHalted, h]

theorem unlessHalted_of_running (h : s.flags.halt = false) (k : State → Result) :
    unlessHalted s k = k s := by simp [unlessHalted, h]

theorem whenCalibrated_of_valid (h : s.flags.calValid = true) (k : State → Result) :
    whenCalibrated s k = k s := by simp [whenCalibrated, h]

theorem whenCalibrated_of_absent (h : s.flags.calValid = false) (k : State → Result) :
    whenCalibrated s k = raise .sequenceError s := by simp [whenCalibrated, h]

theorem whenWellFormed_of_wf {i : Instr} (h : i.wellFormed = true) (k : State → Result) :
    whenWellFormed i s k = k s := by simp [whenWellFormed, h]

theorem whenWellFormed_of_not {i : Instr} (h : i.wellFormed = false) (k : State → Result) :
    whenWellFormed i s k = raise .illegalCommand s := by simp [whenWellFormed, h]

/-- A halted block answers every command with Halted (R246). -/
theorem exec_of_halted (i : Instr) (h : s.flags.halt = true) : exec i s = raise .halted s := by
  cases i <;> simp [exec, execChkid, checkIdentity, execLdcal, execRdcal, execUnpk, execCmpt, execCmpp, execCmph,
    compensateTemperature, compensatePressure, compensateHumidity, unlessHalted_of_halted h]

/-- Everything a command can do: one of the five faults, an answer that writes no block state, or one of the three writes. -/
theorem exec_cases (i : Instr) (s : State) :
    (∃ f, exec i s = raise f s) ∨ (∃ p, exec i s = ok p s) ∨
    (∃ id, i = .chkid id ∧ s.flags.halt = false ∧ exec i s = ok [] s.setIdOk) ∨
    (∃ a b, i = .ldcal a b ∧ s.flags.halt = false ∧ s.flags.idOk = true ∧ s.flags.calValid = false ∧
      i.wellFormed = true ∧ exec i s = ok [] (s.writeCal (decodeBlocks a b)).setCalValid) ∨
    (∃ adcT, i = .cmpt adcT ∧ s.flags.halt = false ∧ s.flags.calValid = true ∧
      exec i s = ok (f64Bytes (tFormula .ieee adcT s.calRegs.temp).2 ++ word32Bytes (tSum .ieee adcT s.calRegs.temp).trunc)
        (s.writeTFine (tSum .ieee adcT s.calRegs.temp).trunc).setTfValid) := by
  by_cases hh : s.flags.halt = true
  · exact .inl ⟨_, exec_of_halted i hh⟩
  have hr : s.flags.halt = false := by simpa using hh
  cases i with
  | chkid id =>
    by_cases he : id = Config.expectedId
    · exact .inr (.inr (.inl ⟨id, rfl, hr, by simp [exec, execChkid, checkIdentity, unlessHalted_of_running hr, he]⟩))
    · exact .inl ⟨.identityMismatch, by simp [exec, execChkid, checkIdentity, unlessHalted_of_running hr, he]⟩
  | ldcal a b =>
    simp only [exec, execLdcal, unlessHalted_of_running hr]
    by_cases hw : (Instr.ldcal a b).wellFormed = true
    · rw [whenWellFormed_of_wf hw]
      by_cases hi : s.flags.idOk = false
      · exact .inl ⟨.sequenceError, by simp [hi]⟩
      · by_cases hc : s.flags.calValid = true
        · exact .inl ⟨.calibrationLocked, by simp [hi, hc]⟩
        · exact .inr (.inr (.inr (.inl ⟨a, b, rfl, hr, by simpa using hi, by simpa using hc, hw, by simp [hi, hc]⟩)))
    · exact .inl ⟨.illegalCommand, by rw [whenWellFormed_of_not (by simpa using hw)]⟩
  | rdcal k =>
    simp only [exec, execRdcal, unlessHalted_of_running hr]
    cases coeffAt k with
    | none => exact .inl ⟨_, rfl⟩
    | some c =>
      by_cases hc : s.flags.calValid = true
      · exact .inr (.inl ⟨_, whenCalibrated_of_valid hc _⟩)
      · exact .inl ⟨_, whenCalibrated_of_absent (by simpa using hc) _⟩
  | unpk raw =>
    simp only [exec, execUnpk, unlessHalted_of_running hr]
    by_cases hw : (Instr.unpk raw).wellFormed = true
    · exact .inr (.inl ⟨_, whenWellFormed_of_wf hw _⟩)
    · exact .inl ⟨_, whenWellFormed_of_not (by simpa using hw) _⟩
  | cmpt adcT =>
    simp only [exec, execCmpt, compensateTemperature, unlessHalted_of_running hr]
    by_cases hc : s.flags.calValid = true
    · exact .inr (.inr (.inr (.inr ⟨adcT, rfl, hr, hc, whenCalibrated_of_valid hc _⟩)))
    · exact .inl ⟨_, whenCalibrated_of_absent (by simpa using hc) _⟩
  | cmpp adcP =>
    simp only [exec, execCmpp, compensatePressure, unlessHalted_of_running hr]
    by_cases hc : s.flags.calValid = true
    · exact .inr (.inl ⟨_, whenCalibrated_of_valid hc _⟩)
    · exact .inl ⟨_, whenCalibrated_of_absent (by simpa using hc) _⟩
  | cmph adcH =>
    simp only [exec, execCmph, compensateHumidity, unlessHalted_of_running hr]
    by_cases hc : s.flags.calValid = true
    · exact .inr (.inl ⟨_, whenCalibrated_of_valid hc _⟩)
    · exact .inl ⟨_, whenCalibrated_of_absent (by simpa using hc) _⟩

/-- The one response a fault adds. -/
theorem raise_response {f : BlockFault} {t : State} (h : raise f s = .next t) : t.outbox = s.outbox ++ [[f.code]] := by
  rw [raise_eq, Host.Outcome.next.injEq] at h
  subst h
  cases f <;> rfl

/-- The one response of a command that completes. -/
theorem ok_response {p : List Byte} {t : State} (h : ok p s = .next t) : t.outbox = s.outbox ++ [0x00#8 :: p] := by
  rw [ok_eq, Host.Outcome.next.injEq] at h
  subst h
  rfl

/-- A frame either is refused by a fault that is not IdentityMismatch, or runs its command in a block that is not halted. -/
theorem runFrame_cases (f : Frame) (s : State) :
    (s.flags.halt = true ∧ runFrame f s = raise .halted s) ∨
    (s.flags.halt = false ∧ (∃ e, decode f = .error e) ∧ runFrame f s = raise .illegalCommand s) ∨
    (s.flags.halt = false ∧ ∃ i, decode f = .ok i ∧ runFrame f s = exec i s) := by
  by_cases hh : s.flags.halt = true
  · exact .inl ⟨hh, by simp [runFrame, hh]⟩
  have hr : s.flags.halt = false := by simpa using hh
  cases hd : decode f with
  | error e => exact .inr (.inl ⟨hr, ⟨e, rfl⟩, by simp [runFrame, hr, hd]⟩)
  | ok i => exact .inr (.inr ⟨hr, i, rfl, by simp [runFrame, hr, hd]⟩)

@[simp] theorem andThen_next (s : State) (k : State → Result) : andThen (.next s) k = k s := (rfl)

@[simp] theorem lastResponse_respond (s : State) (r : Frame) : (s.respond r).lastResponse = r := by
  simp [State.lastResponse]

end Sys2Proof.Machine
end

