-- ==== Sys2Proof/Machine/AnyArithmetic.lean ====
section
/-! DEFINITION. The commands of the block with the binary64 implementation as their parameter (R193); `exec` is the instance at the machine's own. -/

namespace Sys2Proof.Machine

/-- What a command does in a block whose arithmetic is `ar` (R193). Only CMPT, CMPP and CMPH compute in binary64. -/
def execFor (ar : Binary64) (i : Instr) (s : State) : Result :=
  match i with
  | .chkid id => execChkid id s
  | .ldcal a b => execLdcal a b s
  | .rdcal k => execRdcal k s
  | .unpk raw => execUnpk raw s
  | .cmpt adcT => compensateTemperature ar adcT s
  | .cmpp adcP => compensatePressure (defaultPFormula ar Config.nanBits) adcP s
  | .cmph adcH => compensateHumidity ar (defaultHFormula ar) adcH s

end Sys2Proof.Machine
end

