-- ==== Sys2Proof/Laws/Commands.lean ====
section
/-! SUPPORT. What each command answers in a block that runs it, with the next state written out; proofs cite these and do not
unfold a meaning. They are stated over any value, so that no proof compares two large floating-point terms by unfolding. -/

namespace Sys2Proof.Machine

variable {s : State}

/-- The machine's exec is the instance of `execFor` at its own arithmetic. -/
theorem execFor_ieee (i : Instr) (s : State) : execFor .ieee i s = exec i s := by cases i <;> rfl

/-- The literals that statements write as integers. -/
theorem lit_eq_ofInt (ar : Binary64) (n : Nat) : lit ar n = ar.ofInt n := (rfl)
theorem lit_zero (ar : Binary64) : lit ar 0 = ar.ofInt 0 := (rfl)
theorem lit_hundred (ar : Binary64) : lit ar 100 = ar.ofInt 100 := (rfl)

/-- A response added to a state, written out. -/
theorem respond_eq (s : State) (r : Frame) : s.respond r = { s with outbox := s.outbox ++ [r] } := (rfl)

/-- CMPT's writes and its response, written out, for any value and any response. -/
theorem carry_eq (s : State) (v : BitVec 32) (r : Frame) : (s.writeTFine v).setTfValid.respond r =
    { s with tFine := v, flags := { s.flags with tfValid := true }, outbox := s.outbox ++ [r] } := (rfl)

/-- LDCAL's writes and its response, written out. -/
theorem calibrate_eq (s : State) (c : CalibrationSet) (r : Frame) : (s.writeCal c).setCalValid.respond r =
    { s with cal := some c, flags := { s.flags with calValid := true }, outbox := s.outbox ++ [r] } := (rfl)

theorem compensateTemperature_of_ready (ar : Binary64) (adcT : BitVec 20) (hh : s.flags.halt = false)
    (hc : s.flags.calValid = true) : compensateTemperature ar adcT s = .next
      ((s.writeTFine (ar.trunc (tSum ar adcT s.calRegs.temp))).setTfValid.respond
        (0x00#8 :: (f64Bytes (ar.div (tSum ar adcT s.calRegs.temp) (lit ar 5120)) ++
          word32Bytes (ar.trunc (tSum ar adcT s.calRegs.temp))))) := by
  rw [compensateTemperature, unlessHalted_of_running hh, whenCalibrated_of_valid hc, ok_eq, tFormula]

theorem compensatePressure_of_ready (pf : PFormula) (adcP : BitVec 20) (hh : s.flags.halt = false)
    (hc : s.flags.calValid = true) : compensatePressure pf adcP s =
      .next (s.respond (0x00#8 :: f64Bytes (pf adcP s.calRegs.press s.tFine))) := by
  rw [compensatePressure, unlessHalted_of_running hh, whenCalibrated_of_valid hc, ok_eq]

theorem compensateHumidity_of_ready (ar : Binary64) (hf : HFormula) (adcH : BitVec 16) (hh : s.flags.halt = false)
    (hc : s.flags.calValid = true) : compensateHumidity ar hf adcH s =
      .next (s.respond (0x00#8 :: f64Bytes (clampHumidity ar (hf adcH s.calRegs.hum s.tFine)))) := by
  rw [compensateHumidity, unlessHalted_of_running hh, whenCalibrated_of_valid hc, ok_eq]

theorem exec_cmpt_of_ready (adcT : BitVec 20) (hh : s.flags.halt = false) (hc : s.flags.calValid = true) :
    exec (.cmpt adcT) s = .next
      ((s.writeTFine (tSum .ieee adcT s.calRegs.temp).trunc).setTfValid.respond
        (0x00#8 :: (f64Bytes ((tSum .ieee adcT s.calRegs.temp).div (lit .ieee 5120)) ++
          word32Bytes (tSum .ieee adcT s.calRegs.temp).trunc))) :=
  compensateTemperature_of_ready .ieee adcT hh hc

theorem exec_cmpp_of_ready (adcP : BitVec 20) (hh : s.flags.halt = false) (hc : s.flags.calValid = true) :
    exec (.cmpp adcP) s =
      .next (s.respond (0x00#8 :: f64Bytes (defaultPFormula .ieee Config.nanBits adcP s.calRegs.press s.tFine))) :=
  compensatePressure_of_ready _ adcP hh hc

theorem exec_cmph_of_ready (adcH : BitVec 16) (hh : s.flags.halt = false) (hc : s.flags.calValid = true) :
    exec (.cmph adcH) s =
      .next (s.respond (0x00#8 :: f64Bytes (clampHumidity .ieee (defaultHFormula .ieee adcH s.calRegs.hum s.tFine)))) :=
  compensateHumidity_of_ready .ieee _ adcH hh hc

theorem exec_unpk_of_running {raw : List Byte} (hl : raw.length = 8) (hh : s.flags.halt = false) :
    exec (.unpk raw) s = .next (s.respond (0x00#8 :: rawSampleBytes raw)) := by
  rw [exec, execUnpk, unlessHalted_of_running hh, whenWellFormed_of_wf (by simp [Instr.wellFormed, hl]), ok_eq]

theorem exec_ldcal_of_checked {a b : List Byte} (ha : a.length = 26) (hb : b.length = 7) (hh : s.flags.halt = false)
    (hi : s.flags.idOk = true) (hc : s.flags.calValid = false) :
    exec (.ldcal a b) s = .next ((s.writeCal (decodeBlocks a b)).setCalValid.respond [0x00#8]) := by
  rw [exec, execLdcal, unlessHalted_of_running hh, whenWellFormed_of_wf (by simp [Instr.wellFormed, ha, hb])]
  simp [hi, hc, ok_eq]

/-- Presenting the frame of a command runs the command, when the frame decodes to it. -/
theorem runFrame_encode {i : Instr} (hd : decode (encode i) = .ok i) : runFrame (encode i) s = exec i s := by
  by_cases h : s.flags.halt = true
  · simp [runFrame, h, exec_of_halted i h]
  · simp [runFrame, h, hd]

/-- The frames a cycle makes of a response of UNPK are those of CMPT, CMPP and CMPH with its counts. -/
theorem cycleFrames_rawSample (raw : List Byte) : cycleFrames (0x00#8 :: rawSampleBytes raw) =
    [encode (.cmpt (unpackT raw)), encode (.cmpp (unpackP raw)), encode (.cmph (unpackH raw))] := by
  simp [cycleFrames, rawSampleBytes, leBytes_three, leBytes_two, encode, Instr.opcode, Instr.payload, Opcode.code]

end Sys2Proof.Machine
end

