-- ==== Sys2Proof/Laws/Float.lean ====
section
/-! SUPPORT. What the binary64 operations answer: the pattern, the magnitude and the one rounding, said once; the bounds and exactness that proofs about formulas cite. -/

namespace Sys2Proof.F64

set_option exponentiation.threshold 4096

/-! ## Patterns and magnitudes -/

/-- The magnitude, in units, of a pattern without its sign. -/
def patternMagnitude (p : Nat) : Nat :=
  if p / 2 ^ 52 = 0 then p % 2 ^ 52 else (2 ^ 52 + p % 2 ^ 52) * 2 ^ (p / 2 ^ 52 - 1)

/-- 2^1024 in units: every finite magnitude is below it. -/
def rangeUnits : Nat := 2 ^ 2098

theorem unitsPerOne_pos : 0 < unitsPerOne := by unfold unitsPerOne; positivity

theorem pow_lt_range {k : Nat} (h : k < 2098) : 2 ^ k < rangeUnits := by
  unfold rangeUnits; exact Nat.pow_lt_pow_right (by norm_num) h

theorem mul_pow_lt_range {n j k : Nat} (hn : n < 2 ^ j) (h : j + k ≤ 2098) : n * 2 ^ k < rangeUnits := by
  refine Nat.lt_of_lt_of_le (Nat.mul_lt_mul_of_pos_right hn (Nat.two_pow_pos k)) ?_
  rw [← Nat.pow_add]
  unfold rangeUnits
  exact Nat.pow_le_pow_right (by norm_num) h

section Pattern
variable {neg : Bool} {p : Nat}

theorem toNat_ofPattern (h : p < 2 ^ 63) :
    (ofPattern neg p).bits.toNat = (if neg then 2 ^ 63 else 0) + p := by
  cases neg
  · simp [ofPattern, BitVec.toNat_ofNat]; omega
  · simp [ofPattern, BitVec.toNat_ofNat]; omega

@[simp] theorem sign_ofPattern (h : p < 2 ^ 63) : (ofPattern neg p).sign = neg := by
  rw [sign, BitVec.msb_eq_decide, toNat_ofPattern h]
  cases neg <;> (simp; try omega)

theorem exponent_ofPattern (h : p < 2 ^ 63) : (ofPattern neg p).exponent = p / 2 ^ 52 := by
  rw [exponent, toNat_ofPattern h]
  cases neg <;> simp only [Bool.false_eq_true, if_true, if_false] <;> omega

theorem fraction_ofPattern (h : p < 2 ^ 63) : (ofPattern neg p).fraction = p % 2 ^ 52 := by
  rw [fraction, toNat_ofPattern h]
  cases neg <;> simp only [Bool.false_eq_true, if_true, if_false] <;> omega

theorem magnitude_ofPattern (h : p < 2 ^ 63) : (ofPattern neg p).magnitude = patternMagnitude p := by
  rw [magnitude, exponent_ofPattern h, fraction_ofPattern h, patternMagnitude]

theorem isFinite_ofPattern (h : p < infPattern) : (ofPattern neg p).isFinite = true := by
  have hp : p < 2 ^ 63 := by simp only [infPattern] at h; omega
  rw [isFinite, exponent_ofPattern hp]
  simp only [infPattern] at h
  simp; omega

end Pattern

/-- A significand of at most 53 bits, or 2^53, and a shift make the pattern of their product. -/
theorem patternMagnitude_mk {t n : Nat} (hn : n ≤ 2 ^ 53) (h : t = 0 ∨ 2 ^ 52 ≤ n) :
    patternMagnitude (t * 2 ^ 52 + n) = n * 2 ^ t := by
  rcases Nat.lt_or_ge n (2 ^ 52) with hlt | hge
  · obtain rfl : t = 0 := by omega
    have h0 : n / 2 ^ 52 = 0 := by omega
    simp only [patternMagnitude, Nat.zero_mul, Nat.zero_add, h0, if_true, Nat.pow_zero, Nat.mul_one]
    omega
  · rcases Nat.lt_or_ge n (2 ^ 53) with hlt | hge'
    · have hd : (t * 2 ^ 52 + n) / 2 ^ 52 = t + 1 := by omega
      have hm : (t * 2 ^ 52 + n) % 2 ^ 52 = n - 2 ^ 52 := by omega
      rw [patternMagnitude, hd, hm, if_neg (by omega), Nat.add_sub_cancel]
      have hs : 2 ^ 52 + (n - 2 ^ 52) = n := by omega
      rw [hs]
    · obtain rfl : n = 2 ^ 53 := by omega
      have hd : (t * 2 ^ 52 + 2 ^ 53) / 2 ^ 52 = t + 2 := by omega
      have hm : (t * 2 ^ 52 + 2 ^ 53) % 2 ^ 52 = 0 := by omega
      rw [patternMagnitude, hd, hm, if_neg (by omega)]
      have : t + 2 - 1 = t + 1 := by omega
      rw [this, pow_succ]
      ring

/-- A magnitude that a 53-bit significand and a shift make: every finite value has one. -/
def Representable (m : Nat) : Prop := ∃ n t, n < 2 ^ 53 ∧ m = n * 2 ^ t

theorem representable_patternMagnitude (p : Nat) : Representable (patternMagnitude p) := by
  unfold patternMagnitude
  split
  · exact ⟨p % 2 ^ 52, 0, by omega, by simp⟩
  · exact ⟨2 ^ 52 + p % 2 ^ 52, _, by omega, rfl⟩

theorem representable_magnitude (x : F64) : Representable x.magnitude := by
  unfold magnitude fraction
  split
  · exact ⟨x.bits.toNat % 2 ^ 52, 0, by omega, by simp⟩
  · exact ⟨2 ^ 52 + x.bits.toNat % 2 ^ 52, _, by omega, rfl⟩

theorem representable_mul_pow {n : Nat} (t : Nat) (h : n < 2 ^ 53) : Representable (n * 2 ^ t) := ⟨n, t, h, rfl⟩

theorem representable_pow (t : Nat) : Representable (2 ^ t) := ⟨1, t, by norm_num, by simp⟩

theorem representable_of_lt {n : Nat} (h : n < 2 ^ 53) : Representable n := ⟨n, 0, h, by simp⟩

/-! ## The one rounding -/

/-- How `roundPattern` splits num/den: a shift, a quotient of at most 53 bits, a remainder. -/
structure Split (num den t q r : Nat) : Prop where
  place_eq : num = q * (den * 2 ^ t) + r
  rem_lt : r < den * 2 ^ t
  q_lt : q < 2 ^ 53
  normal : t = 0 ∨ 2 ^ 52 ≤ q

/-- Whether the remainder rounds the quotient up: above half a place, or at half a place with an odd quotient. -/
def roundUp (place q r : Nat) : Nat := if place < 2 * r ∨ (2 * r = place ∧ q % 2 = 1) then 1 else 0

theorem roundUp_le (place q r : Nat) : roundUp place q r ≤ 1 := by unfold roundUp; split <;> omega

/-- The one thing `roundPattern` does: it splits num/den and rounds the quotient up or not. -/
theorem roundPattern_split (num : Nat) {den : Nat} (hd : 0 < den) :
    ∃ t q r, Split num den t q r ∧ roundPattern num den = t * 2 ^ 52 + (q + roundUp (den * 2 ^ t) q r) := by
  refine ⟨Nat.log2 (num / den) - 52, num / (den * 2 ^ (Nat.log2 (num / den) - 52)),
    num % (den * 2 ^ (Nat.log2 (num / den) - 52)), ?_, rfl⟩
  have hplace : 0 < den * 2 ^ (Nat.log2 (num / den) - 52) := Nat.mul_pos hd (Nat.two_pow_pos _)
  refine ⟨by rw [Nat.mul_comm]; exact (Nat.div_add_mod _ _).symm, Nat.mod_lt _ hplace, ?_, ?_⟩
  · rw [← Nat.div_div_eq_div_mul, Nat.div_lt_iff_lt_mul (Nat.two_pow_pos _), ← Nat.pow_add]
    refine Nat.lt_of_lt_of_le Nat.lt_log2_self (Nat.pow_le_pow_right (by norm_num) (by omega))
  · by_cases h : Nat.log2 (num / den) ≤ 52
    · exact .inl (by omega)
    · right
      have hne : num / den ≠ 0 := by intro h0; simp [h0] at h
      rw [← Nat.div_div_eq_div_mul, Nat.le_div_iff_mul_le (Nat.two_pow_pos _), ← Nat.pow_add]
      refine Nat.le_trans (Nat.pow_le_pow_right (by norm_num) ?_) (Nat.log2_self_le hne)
      omega

/-- The magnitude of the rounded pattern. -/
theorem patternMagnitude_round {num den t q r : Nat} (h : Split num den t q r) :
    patternMagnitude (t * 2 ^ 52 + (q + roundUp (den * 2 ^ t) q r)) = (q + roundUp (den * 2 ^ t) q r) * 2 ^ t := by
  have hu := roundUp_le (den * 2 ^ t) q r
  have hq := h.q_lt
  refine patternMagnitude_mk (by omega) ?_
  rcases h.normal with h0 | h1
  · exact .inl h0
  · exact .inr (by omega)

/-- A representable magnitude is a multiple of the place, or below every normal number of that place. -/
theorem representable_place {m : Nat} (hm : Representable m) (t : Nat) :
    (∃ k, m = k * 2 ^ t) ∨ (0 < t ∧ m < 2 ^ 52 * 2 ^ t) := by
  obtain ⟨n, e, hn, rfl⟩ := hm
  by_cases he : t ≤ e
  · exact .inl ⟨n * 2 ^ (e - t), by rw [Nat.mul_assoc, ← Nat.pow_add, Nat.sub_add_cancel he]⟩
  · right
    refine ⟨by omega, ?_⟩
    calc n * 2 ^ e < 2 ^ 53 * 2 ^ e := Nat.mul_lt_mul_of_pos_right hn (Nat.two_pow_pos _)
      _ = 2 ^ 52 * 2 ^ (e + 1) := by rw [pow_succ]; ring
      _ ≤ 2 ^ 52 * 2 ^ t := Nat.mul_le_mul_left _ (Nat.pow_le_pow_right (by norm_num) (by omega))

/-- Rounding never passes a representable magnitude from below. -/
theorem round_le {num den m : Nat} (hd : 0 < den) (hm : Representable m) (h : num ≤ m * den) :
    patternMagnitude (roundPattern num den) ≤ m := by
  obtain ⟨t, q, r, hs, he⟩ := roundPattern_split num hd
  rw [he, patternMagnitude_round hs]
  have hpl : 0 < den * 2 ^ t := Nat.mul_pos hd (Nat.two_pow_pos _)
  have heq := hs.place_eq
  have hr := hs.rem_lt
  rcases representable_place hm t with ⟨k, rfl⟩ | ⟨ht, hlt⟩
  · refine Nat.mul_le_mul_right _ ?_
    have hk : q * (den * 2 ^ t) + r ≤ k * (den * 2 ^ t) := by
      rw [← heq]; calc num ≤ k * 2 ^ t * den := h
        _ = k * (den * 2 ^ t) := by ring
    have hqk : q ≤ k := by
      by_contra hc
      have : (k + 1) * (den * 2 ^ t) ≤ q * (den * 2 ^ t) := Nat.mul_le_mul_right _ (by omega)
      rw [Nat.add_mul] at this; omega
    rcases Nat.lt_or_ge q k with hlt | hge
    · have := roundUp_le (den * 2 ^ t) q r; omega
    · obtain rfl : q = k := by omega
      have : r = 0 := by omega
      have : roundUp (den * 2 ^ t) q r = 0 := by unfold roundUp; rw [if_neg]; omega
      omega
  · exfalso
    have hq : 2 ^ 52 ≤ q := by rcases hs.normal with h0 | h1 <;> omega
    have h1 : 2 ^ 52 * 2 ^ t * den ≤ q * (den * 2 ^ t) := by
      calc 2 ^ 52 * 2 ^ t * den = 2 ^ 52 * (den * 2 ^ t) := by ring
        _ ≤ q * (den * 2 ^ t) := Nat.mul_le_mul_right _ hq
    have h2 : m * den < 2 ^ 52 * 2 ^ t * den := Nat.mul_lt_mul_of_pos_right hlt hd
    omega

/-- Rounding never passes a representable magnitude from above. -/
theorem le_round {num den m : Nat} (hd : 0 < den) (hm : Representable m) (h : m * den ≤ num) :
    m ≤ patternMagnitude (roundPattern num den) := by
  obtain ⟨t, q, r, hs, he⟩ := roundPattern_split num hd
  rw [he, patternMagnitude_round hs]
  have hpl : 0 < den * 2 ^ t := Nat.mul_pos hd (Nat.two_pow_pos _)
  have heq := hs.place_eq
  have hr := hs.rem_lt
  rcases representable_place hm t with ⟨k, rfl⟩ | ⟨ht, hlt⟩
  · refine Nat.mul_le_mul_right _ ?_
    by_contra hc
    have : (q + 1) * (den * 2 ^ t) ≤ k * (den * 2 ^ t) := Nat.mul_le_mul_right _ (by omega)
    have h2 : k * (den * 2 ^ t) ≤ num := by calc k * (den * 2 ^ t) = k * 2 ^ t * den := by ring
        _ ≤ num := h
    rw [Nat.add_mul] at this; omega
  · have hq : 2 ^ 52 ≤ q := by rcases hs.normal with h0 | h1 <;> omega
    refine Nat.le_trans hlt.le (Nat.mul_le_mul_right _ (by omega))

/-- Rounding is exact on a representable magnitude. -/
theorem round_exact {den m : Nat} (hd : 0 < den) (hm : Representable m) :
    patternMagnitude (roundPattern (m * den) den) = m :=
  Nat.le_antisymm (round_le hd hm le_rfl) (le_round hd hm le_rfl)

/-- The rounded pattern is that of a finite value when its magnitude is below 2^1024. -/
theorem roundPattern_lt_inf {num den : Nat} (hd : 0 < den)
    (h : patternMagnitude (roundPattern num den) < rangeUnits) :
    roundPattern num den < infPattern := by
  obtain ⟨t, q, r, hs, he⟩ := roundPattern_split num hd
  rw [he, patternMagnitude_round hs] at h
  rw [he]
  have hu := roundUp_le (den * 2 ^ t) q r
  have hq := hs.q_lt
  have hn := hs.normal
  have hn53 : q + roundUp (den * 2 ^ t) q r ≤ 2 ^ 53 := by omega
  have hn52 : t = 0 ∨ 2 ^ 52 ≤ q + roundUp (den * 2 ^ t) q r := by omega
  generalize q + roundUp (den * 2 ^ t) q r = n at h hn53 hn52 ⊢
  have hbig : ¬ (2 ^ 52 * 2 ^ 2046 ≤ n * 2 ^ t) := by
    unfold rangeUnits at h; rw [← Nat.pow_add, Nat.not_le]; exact h
  by_contra hc
  rw [Nat.not_lt, infPattern] at hc
  apply hbig
  rcases Nat.lt_or_ge t 2046 with hlt | hge
  · have ht : t = 2045 := by omega
    have hnn : n = 2 ^ 53 := by omega
    subst ht hnn
    exact le_of_eq (by rw [← Nat.pow_add, ← Nat.pow_add])
  · have hn' : 2 ^ 52 ≤ n := by omega
    exact Nat.mul_le_mul hn' (Nat.pow_le_pow_right (by norm_num) hge)

section Round
variable {neg : Bool} {num den m : Nat}

theorem min_inf_lt : min (roundPattern num den) infPattern < 2 ^ 63 := by
  have : min (roundPattern num den) infPattern ≤ infPattern := Nat.min_le_right _ _
  simp only [infPattern] at *; omega

@[simp] theorem sign_round : (round neg num den).sign = neg := sign_ofPattern min_inf_lt

/-- A rounding below 2^1024 is finite, and its magnitude is that of the rounded pattern. -/
theorem round_finite (hd : 0 < den) (h : patternMagnitude (roundPattern num den) < rangeUnits) :
    (round neg num den).isFinite = true ∧
      (round neg num den).magnitude = patternMagnitude (roundPattern num den) := by
  have hlt := roundPattern_lt_inf hd h
  have hmin : min (roundPattern num den) infPattern = roundPattern num den := Nat.min_eq_left hlt.le
  refine ⟨?_, ?_⟩
  · rw [round, hmin]; exact isFinite_ofPattern hlt
  · rw [round, magnitude_ofPattern min_inf_lt, hmin]

/-- The bound of one rounded operation: finite, and at most any representable magnitude that bounds the exact result. -/
theorem round_bound (hd : 0 < den) (hm : Representable m) (hlt : m < rangeUnits) (h : num ≤ m * den) :
    (round neg num den).isFinite = true ∧ (round neg num den).magnitude ≤ m := by
  have hle := round_le hd hm h
  obtain ⟨hf, he⟩ := round_finite (neg := neg) hd (Nat.lt_of_le_of_lt hle hlt)
  exact ⟨hf, he ▸ hle⟩

/-- A rounding of a representable magnitude is exact. -/
theorem round_of_representable (hd : 0 < den) (hm : Representable m) (hlt : m < rangeUnits) :
    (round neg (m * den) den).isFinite = true ∧ (round neg (m * den) den).magnitude = m := by
  have he := round_exact hd hm
  have := round_finite (neg := neg) hd (by rw [he]; exact hlt)
  exact ⟨this.1, this.2.trans he⟩

end Round

/-! ## The operations on finite values -/

section Finite
variable {x y : F64}

theorem isNaN_of_finite (h : x.isFinite = true) : x.isNaN = false := by
  simp only [isFinite, bne_iff_ne] at h; simp [isNaN, h]

theorem isInf_of_finite (h : x.isFinite = true) : x.isInf = false := by
  simp only [isFinite, bne_iff_ne] at h; simp [isInf, h]

theorem isNaN_eq_false_iff : x.isNaN = false ↔ x.exponent ≠ 2047 ∨ x.fraction = 0 := by
  simp [isNaN]; tauto

/-- The magnitude is that of the pattern without its sign. -/
theorem magnitude_eq (x : F64) : x.magnitude = patternMagnitude (x.bits.toNat % 2 ^ 63) := by
  have he : x.exponent = x.bits.toNat % 2 ^ 63 / 2 ^ 52 := by unfold exponent; omega
  have hf : x.fraction = x.bits.toNat % 2 ^ 63 % 2 ^ 52 := by unfold fraction; omega
  rw [magnitude, patternMagnitude, he, hf]

theorem low_lt (x : F64) : x.bits.toNat % 2 ^ 63 < 2 ^ 63 := Nat.mod_lt _ (by norm_num)

@[simp] theorem sign_neg (x : F64) : x.neg.sign = !x.sign := sign_ofPattern (low_lt x)

@[simp] theorem magnitude_neg (x : F64) : x.neg.magnitude = x.magnitude := by
  rw [neg, magnitude_ofPattern (low_lt x), magnitude_eq]

@[simp] theorem exponent_neg (x : F64) : x.neg.exponent = x.exponent := by
  rw [neg, exponent_ofPattern (low_lt x), exponent]; omega

@[simp] theorem fraction_neg (x : F64) : x.neg.fraction = x.fraction := by
  rw [neg, fraction_ofPattern (low_lt x), fraction]; omega

@[simp] theorem isFinite_neg (x : F64) : x.neg.isFinite = x.isFinite := by simp [isFinite]

theorem natAbs_units (x : F64) : x.units.natAbs = x.magnitude := by unfold units; split <;> simp

@[simp] theorem units_neg (x : F64) : x.neg.units = -x.units := by
  unfold units; rw [sign_neg, magnitude_neg]; cases x.sign <;> simp

/-- A finite magnitude is below 2^1024. -/
theorem magnitude_lt (h : x.isFinite = true) : x.magnitude < rangeUnits := by
  have he : x.exponent < 2047 := by
    have h2 : x.exponent < 2048 := Nat.mod_lt _ (by norm_num)
    simp only [isFinite, bne_iff_ne] at h
    omega
  have hf : x.fraction < 2 ^ 52 := Nat.mod_lt _ (by norm_num)
  unfold magnitude
  split
  · exact Nat.lt_trans hf (pow_lt_range (by norm_num))
  · exact mul_pow_lt_range (by omega : 2 ^ 52 + x.fraction < 2 ^ 53) (by omega)

theorem add_of_finite (hx : x.isFinite = true) (hy : y.isFinite = true) : x.add y = addFinite x y := by
  simp [add, isNaN_of_finite hx, isNaN_of_finite hy, isInf_of_finite hx, isInf_of_finite hy]

theorem mul_of_finite (hx : x.isFinite = true) (hy : y.isFinite = true) :
    x.mul y = round (x.sign != y.sign) (x.magnitude * y.magnitude) unitsPerOne := by
  simp [mul, isNaN_of_finite hx, isNaN_of_finite hy, isInf_of_finite hx, isInf_of_finite hy]

theorem div_of_finite (hx : x.isFinite = true) (hy : y.isFinite = true) (h0 : y.magnitude ≠ 0) :
    x.div y = round (x.sign != y.sign) (x.magnitude * unitsPerOne) y.magnitude := by
  simp [div, isNaN_of_finite hx, isNaN_of_finite hy, isInf_of_finite hx, isInf_of_finite hy, h0]

@[simp] theorem zero_isFinite (neg : Bool) : (zero neg).isFinite = true := isFinite_ofPattern (by simp [infPattern])

@[simp] theorem zero_magnitude (neg : Bool) : (zero neg).magnitude = 0 := by
  rw [zero, magnitude_ofPattern (by norm_num)]; rfl

@[simp] theorem zero_sign (neg : Bool) : (zero neg).sign = neg := sign_ofPattern (by norm_num)

/-- Exact conversion (R182): a finite value with the integer's magnitude and sign. -/
theorem ofInt_spec {i : Int} (h : i.natAbs < 2 ^ 53) :
    (ofInt i).isFinite = true ∧ (ofInt i).magnitude = i.natAbs * unitsPerOne ∧ (ofInt i).sign = decide (i < 0) := by
  have hrep : Representable (i.natAbs * unitsPerOne) := ⟨i.natAbs, 1074, h, rfl⟩
  have hlt : i.natAbs * unitsPerOne < rangeUnits := by
    unfold unitsPerOne
    exact mul_pow_lt_range h (by norm_num)
  have := round_of_representable (neg := decide (i < 0)) Nat.one_pos hrep hlt
  rw [Nat.mul_one] at this
  exact ⟨this.1, this.2, sign_round⟩

end Finite

/-! ## The bound calculus: one lemma per operation -/

/-- x is finite and its magnitude is at most b units. -/
def Bounded (x : F64) (b : Nat) : Prop := x.isFinite = true ∧ x.magnitude ≤ b

section Bounds
variable {x y : F64} {a b m : Nat}

theorem bounded_mono (h : Bounded x a) (hab : a ≤ b) : Bounded x b := ⟨h.1, Nat.le_trans h.2 hab⟩

theorem bounded_neg (h : Bounded x a) : Bounded x.neg a := ⟨by simpa using h.1, by simpa using h.2⟩

theorem bounded_ofInt {i : Int} (h : i.natAbs < 2 ^ 53) : Bounded (ofInt i) (i.natAbs * unitsPerOne) :=
  ⟨(ofInt_spec h).1, (ofInt_spec h).2.1.le⟩

theorem bounded_add (hx : Bounded x a) (hy : Bounded y b) (hm : Representable m)
    (hlt : m < rangeUnits) (h : a + b ≤ m) : Bounded (x.add y) m := by
  rw [add_of_finite hx.1 hy.1]
  unfold addFinite
  have hz : (x.units + y.units).natAbs ≤ m := by
    have := Int.natAbs_add_le x.units y.units
    rw [natAbs_units, natAbs_units] at this
    have h1 := hx.2
    have h2 := hy.2
    omega
  dsimp only
  split
  · exact ⟨zero_isFinite _, by simp⟩
  · exact round_bound Nat.one_pos hm hlt (by rwa [Nat.mul_one])

theorem bounded_sub (hx : Bounded x a) (hy : Bounded y b) (hm : Representable m)
    (hlt : m < rangeUnits) (h : a + b ≤ m) : Bounded (x.sub y) m :=
  bounded_add hx (bounded_neg hy) hm hlt h

theorem bounded_mul (hx : Bounded x a) (hy : Bounded y b) (hm : Representable m)
    (hlt : m < rangeUnits) (h : a * b ≤ m * unitsPerOne) : Bounded (x.mul y) m := by
  rw [mul_of_finite hx.1 hy.1]
  exact round_bound unitsPerOne_pos hm hlt (Nat.le_trans (Nat.mul_le_mul hx.2 hy.2) h)

/-- A quotient, by the least magnitude b > 0 of its divisor. -/
theorem bounded_div (hx : Bounded x a) (hy : y.isFinite = true) (hb : 0 < b) (hyb : b ≤ y.magnitude)
    (hm : Representable m) (hlt : m < rangeUnits) (h : a * unitsPerOne ≤ m * b) :
    Bounded (x.div y) m := by
  rw [div_of_finite hx.1 hy (by omega)]
  refine round_bound (by omega) hm hlt ?_
  exact Nat.le_trans (Nat.mul_le_mul_right _ hx.2) (Nat.le_trans h (Nat.mul_le_mul_left _ hyb))

end Bounds

end Sys2Proof.F64
end

