-- ==== Sys2Proof/Laws/Formula.lean ====
section
/-! SUPPORT. What the formulas' own operands are: the literals, the counts and coefficients as binary64 numbers, division by a literal, the difference of two numbers that are not negative, and the comparison with zero. -/

namespace Sys2Proof.F64

set_option exponentiation.threshold 4096

open Machine

/-! The machine's own arithmetic, operation by operation. -/

section
variable (x y : F64)
@[simp] theorem ieee_add : Binary64.ieee.add x y = x.add y := (rfl)
@[simp] theorem ieee_sub : Binary64.ieee.sub x y = x.sub y := (rfl)
@[simp] theorem ieee_mul : Binary64.ieee.mul x y = x.mul y := (rfl)
@[simp] theorem ieee_div : Binary64.ieee.div x y = x.div y := (rfl)
@[simp] theorem ieee_ofInt (i : Int) : Binary64.ieee.ofInt i = ofInt i := (rfl)
@[simp] theorem ieee_trunc : Binary64.ieee.trunc x = x.trunc := (rfl)
@[simp] theorem ieee_eq : Binary64.ieee.eq x y = x.eq y := (rfl)
@[simp] theorem ieee_lt : Binary64.ieee.lt x y = x.lt y := (rfl)
@[simp] theorem ieee_gt : Binary64.ieee.gt x y = x.gt y := (rfl)
end

section
variable {x y : F64} {a m n k : Nat}

theorem lit_spec (h : n < 2 ^ 53) :
    (lit .ieee n).isFinite = true ∧ (lit .ieee n).magnitude = n * unitsPerOne ∧ (lit .ieee n).sign = false := by
  obtain ⟨h1, h2, h3⟩ := ofInt_spec (i := n) (by simpa)
  exact ⟨h1, h2.trans (by simp), h3.trans (by simp)⟩

theorem bounded_lit (h : n < 2 ^ 53) : Bounded (lit .ieee n) (n * unitsPerOne) :=
  ⟨(lit_spec h).1, (lit_spec h).2.1.le⟩

/-- An unsigned operand: its bound, and that it is not negative. -/
theorem bounded_fu (v : BitVec k) (hv : v.toNat ≤ n) (hn : n < 2 ^ 53) :
    Bounded (fu .ieee v) (n * unitsPerOne) ∧ (fu .ieee v).sign = false := by
  have h : (v.toNat : Int).natAbs < 2 ^ 53 := by simp; omega
  exact ⟨bounded_mono (bounded_ofInt h) (by simpa using Nat.mul_le_mul_right _ hv), (ofInt_spec h).2.2.trans (by simp)⟩

theorem bounded_fs (v : BitVec k) (hv : v.toInt.natAbs ≤ n) (hn : n < 2 ^ 53) : Bounded (fs .ieee v) (n * unitsPerOne) :=
  bounded_mono (bounded_ofInt (by omega)) (Nat.mul_le_mul_right _ hv)

/-- Every two's-complement pattern, as a bound of its number. -/
theorem natAbs_toInt_le (v : BitVec k) : v.toInt.natAbs ≤ 2 ^ (k - 1) := by
  have h1 := v.toInt_lt
  have h2 := v.le_toInt
  zify
  rw [abs_le]
  omega

/-- A quotient by a literal. -/
theorem bounded_div_lit (hx : Bounded x a) (h0 : 0 < n) (hn : n < 2 ^ 53) (hm : Representable m) (hlt : m < rangeUnits)
    (h : a ≤ m * n) : Bounded (x.div (lit .ieee n)) m := by
  obtain ⟨h1, h2, -⟩ := lit_spec hn
  refine bounded_div hx h1 (Nat.mul_pos h0 unitsPerOne_pos) h2.ge hm hlt ?_
  calc a * unitsPerOne ≤ m * n * unitsPerOne := Nat.mul_le_mul_right _ h
    _ = m * (n * unitsPerOne) := by ring

theorem sign_div_lit (hx : x.isFinite = true) (h0 : 0 < n) (hn : n < 2 ^ 53) : (x.div (lit .ieee n)).sign = x.sign := by
  obtain ⟨h1, h2, h3⟩ := lit_spec hn
  rw [div_of_finite hx h1 (by rw [h2]; exact (Nat.mul_pos h0 unitsPerOne_pos).ne'), sign_round, h3, Bool.bne_false]

/-- The difference of two numbers that are not negative is no larger than a common bound of both. -/
theorem bounded_sub_nonneg (hx : Bounded x m) (hy : Bounded y m) (sx : x.sign = false) (sy : y.sign = false)
    (hm : Representable m) (hlt : m < rangeUnits) : Bounded (x.sub y) m := by
  rw [sub, add_of_finite hx.1 (bounded_neg hy).1]
  unfold addFinite
  have hz : (x.units + y.neg.units).natAbs ≤ m := by
    have h1 := hx.2
    have h2 := hy.2
    simp only [units, sign_neg, sx, sy, magnitude_neg]
    simp
    omega
  dsimp only
  split
  · exact ⟨zero_isFinite _, by simp⟩
  · exact round_bound Nat.one_pos hm hlt (by rwa [Nat.mul_one])

theorem units_lit (h : n < 2 ^ 53) : (lit .ieee n).units = n * unitsPerOne := by
  obtain ⟨-, h2, h3⟩ := lit_spec h
  simp [units, h3, h2]

theorem units_eq_zero : x.units = 0 ↔ x.magnitude = 0 := by rw [← natAbs_units]; omega

/-- A finite number equals 0.0 exactly when its magnitude is zero. -/
theorem eq_lit_zero (hx : x.isFinite = true) : x.eq (lit .ieee 0) = true ↔ x.magnitude = 0 := by
  have h0 : (lit .ieee 0).units = 0 := by rw [units_lit (by norm_num)]; simp
  simp [F64.eq, isNaN_of_finite hx, isNaN_of_finite (lit_spec (n := 0) (by norm_num)).1, h0, units_eq_zero]

end

end Sys2Proof.F64
end

