-- ==== Sys2Proof/Laws/Value.lean ====
section
/-! SUPPORT. The real value of a binary64 number in terms of its sign and magnitude. -/

namespace Sys2Proof.F64

set_option exponentiation.threshold 4096

variable {x : F64}

theorem unitsPerOne_pos' : (0 : ℚ) < (unitsPerOne : ℚ) := by exact_mod_cast unitsPerOne_pos

theorem value_eq (x : F64) : x.value = (if x.sign then -1 else 1) * (x.magnitude : ℚ) / unitsPerOne := by
  rw [value, units]; split <;> simp

theorem abs_value (x : F64) : |x.value| = (x.magnitude : ℚ) / unitsPerOne := by
  rw [value, abs_div, abs_of_pos unitsPerOne_pos', ← Int.cast_abs, Int.abs_eq_natAbs, natAbs_units]; simp

theorem value_neg (x : F64) : x.neg.value = -x.value := by
  rw [value_eq, value_eq, sign_neg, magnitude_neg]; cases x.sign <;> simp <;> ring

/-- A bound in units as a bound of the value. -/
theorem abs_value_le {b : Nat} (h : Bounded x b) : |x.value| ≤ (b : ℚ) / unitsPerOne := by
  rw [abs_value]
  exact div_le_div_of_nonneg_right (by exact_mod_cast h.2) unitsPerOne_pos'.le

end Sys2Proof.F64
end

