-- ==== Sys2Proof/Laws/Monotone.lean ====
section
/-! SUPPORT. The machine's arithmetic is monotone and exact on exactly representable results (R193): the witness of the premise under which claims about any binary64 implementation stand. -/

namespace Sys2Proof

namespace F64

set_option exponentiation.threshold 4096
variable {x y : F64}

theorem value_nonneg (h : x.sign = false) : 0 ≤ x.value := by
  rw [value_eq, h]; simp; exact div_nonneg (Nat.cast_nonneg _) unitsPerOne_pos'.le

theorem value_nonpos (h : x.sign = true) : x.value ≤ 0 := by
  rw [value_eq, h]; simp only [if_true, neg_mul, one_mul, neg_div]
  exact neg_nonpos.2 (div_nonneg (Nat.cast_nonneg _) unitsPerOne_pos'.le)

/-- One rounding of a magnitude e: finite and at most every finite magnitude that bounds e, and at least every one that e bounds. -/
theorem round_between_abs {neg : Bool} {num den : Nat} (hd : 0 < den) {e : ℚ}
    (he : e = (num : ℚ) / den / unitsPerOne) {hi : F64} (hf : hi.isFinite = true) (hle : e ≤ |hi.value|) :
    (round neg num den).isFinite = true ∧ |(round neg num den).value| ≤ |hi.value| ∧
      ∀ lo : F64, |lo.value| ≤ e → |lo.value| ≤ |(round neg num den).value| := by
  have hU := unitsPerOne_pos'
  have hd' : (0 : ℚ) < den := by exact_mod_cast hd
  have h1 : num ≤ hi.magnitude * den := by
    rw [he, abs_value, div_le_div_iff_of_pos_right hU, div_le_iff₀ hd'] at hle
    exact_mod_cast hle
  obtain ⟨hfin, hm⟩ := round_bound (neg := neg) hd (representable_magnitude hi) (magnitude_lt hf) h1
  refine ⟨hfin, ?_, fun lo hlo => ?_⟩
  · rw [abs_value, abs_value]
    exact div_le_div_of_nonneg_right (by exact_mod_cast hm) hU.le
  · have h2 : lo.magnitude * den ≤ num := by
      rw [he, abs_value, div_le_div_iff_of_pos_right hU, le_div_iff₀ hd'] at hlo
      exact_mod_cast hlo
    have h3 := le_round hd (representable_magnitude lo) h2
    have h4 := Nat.lt_of_le_of_lt (round_le hd (representable_magnitude hi) h1) (magnitude_lt hf)
    rw [abs_value, abs_value, (round_finite hd h4).2]
    exact div_le_div_of_nonneg_right (by exact_mod_cast h3) hU.le

/-- One rounding of an exact result with its sign. -/
theorem round_between {neg : Bool} {num den : Nat} (hd : 0 < den) {e : ℚ}
    (he : e = (if neg then -1 else 1) * ((num : ℚ) / den / unitsPerOne)) : Between e (round neg num den) := by
  intro lo hi hlo hhi h1 h2
  have hU := unitsPerOne_pos'
  have h0 : (0 : ℚ) ≤ (num : ℚ) / den / unitsPerOne := by positivity
  have hs : (round neg num den).sign = neg := sign_round
  cases neg
  · simp only [Bool.false_eq_true, if_false, one_mul] at he
    have hp := value_nonneg hs
    obtain ⟨a, b, c⟩ := round_between_abs (neg := false) hd he hhi (h2.trans (le_abs_self _))
    rw [abs_of_nonneg hp, abs_of_nonneg ((he ▸ h0).trans h2)] at b
    refine ⟨a, ?_, b⟩
    by_cases hl : lo.value ≤ 0
    · exact hl.trans hp
    · have := c lo (by rwa [abs_of_pos (not_le.1 hl)])
      rwa [abs_of_pos (not_le.1 hl), abs_of_nonneg hp] at this
  · simp only [if_true, neg_mul, one_mul] at he
    have hp := value_nonpos hs
    have he' : -e = (num : ℚ) / den / unitsPerOne := by rw [he, neg_neg]
    have hl : lo.value ≤ 0 := by linarith
    obtain ⟨a, b, c⟩ := round_between_abs (neg := true) hd he' hlo (by rw [abs_of_nonpos hl]; linarith)
    rw [abs_of_nonpos hp, abs_of_nonpos hl] at b
    refine ⟨a, by linarith, ?_⟩
    by_cases hh : 0 ≤ hi.value
    · exact hp.trans hh
    · have := c hi (by rw [abs_of_neg (not_le.1 hh)]; linarith)
      rw [abs_of_neg (not_le.1 hh), abs_of_nonpos hp] at this
      linarith

theorem add_between (hx : x.isFinite = true) (hy : y.isFinite = true) : Between (x.value + y.value) (x.add y) := by
  have e : x.value + y.value = ((x.units + y.units : ℤ) : ℚ) / unitsPerOne := by
    rw [value, value]; push_cast; ring
  rw [add_of_finite hx hy, addFinite]
  split
  · rename_i hz
    rw [e, hz]
    intro lo hi _ _ h1 h2
    have h0 : (zero (x.sign && y.sign)).value = 0 := by rw [value_eq, zero_magnitude]; simp
    rw [h0]
    exact ⟨zero_isFinite _, by simpa using h1, by simpa using h2⟩
  · refine round_between Nat.one_pos ?_
    rw [e]
    by_cases h : x.units + y.units < 0
    · simp [h, abs_of_neg (show ((x.units : ℚ) + y.units) < 0 by exact_mod_cast h)]
      ring
    · simp [h, abs_of_nonneg (show 0 ≤ ((x.units : ℚ) + y.units) by exact_mod_cast not_lt.1 h)]

theorem mul_between (hx : x.isFinite = true) (hy : y.isFinite = true) : Between (x.value * y.value) (x.mul y) := by
  rw [mul_of_finite hx hy]
  refine round_between unitsPerOne_pos ?_
  rw [value_eq, value_eq]
  push_cast
  cases x.sign <;> cases y.sign <;> simp <;> ring

theorem magnitude_ne_zero (h : y.value ≠ 0) : y.magnitude ≠ 0 := fun h0 => h (by rw [value_eq, h0]; simp)

theorem div_between (hx : x.isFinite = true) (hy : y.isFinite = true) (h0 : y.value ≠ 0) :
    Between (x.value / y.value) (x.div y) := by
  have hm := magnitude_ne_zero h0
  rw [div_of_finite hx hy hm]
  refine round_between (Nat.pos_of_ne_zero hm) ?_
  have hU := unitsPerOne_pos'.ne'
  have hm' : (y.magnitude : ℚ) ≠ 0 := by exact_mod_cast hm
  rw [value_eq, value_eq]
  push_cast
  cases x.sign <;> cases y.sign <;> simp <;> field_simp

theorem ofInt_between (i : Int) : Between (i : ℚ) (ofInt i) := by
  refine round_between Nat.one_pos ?_
  have hU := unitsPerOne_pos'.ne'
  rcases lt_or_ge i 0 with h | h
  · have hq : (i : ℚ) < 0 := by exact_mod_cast h
    simp [h, abs_of_neg hq]
    field_simp
  · have hq : (0 : ℚ) ≤ i := by exact_mod_cast h
    simp [not_lt.2 h, abs_of_nonneg hq, hU]

/-- `trunc` gives an integer no larger in magnitude than its operand. -/
theorem abs_trunc_le (hx : x.isFinite = true) (h : |x.value| < 2 ^ 31) : |(x.trunc.toInt : ℚ)| ≤ |x.value| := by
  have hU := unitsPerOne_pos'
  have hm : x.magnitude < 2 ^ 31 * unitsPerOne := by
    rw [abs_value, div_lt_iff₀ hU] at h
    exact_mod_cast h
  have h1 : (x.units.tdiv unitsPerOne).natAbs = x.magnitude / unitsPerOne := by
    rw [Int.natAbs_tdiv, natAbs_units]; rfl
  have h2 : x.magnitude / unitsPerOne < 2 ^ 31 := Nat.div_lt_of_lt_mul (by rwa [Nat.mul_comm])
  rw [trunc, if_pos ⟨hx, hm⟩, BitVec.toInt_ofInt, Int.bmod_eq_of_le (by omega) (by omega), ← Int.cast_abs, Int.abs_eq_natAbs, h1,
    abs_value, le_div_iff₀ hU]
  exact_mod_cast Nat.div_mul_le_self _ _

theorem eq_iff_value (hx : x.isFinite = true) (hy : y.isFinite = true) : x.eq y = true ↔ x.value = y.value := by
  rw [value, value, div_left_inj' unitsPerOne_pos'.ne', Int.cast_inj]
  simp [F64.eq, isNaN_of_finite hx, isNaN_of_finite hy]

theorem lt_iff_value (hx : x.isFinite = true) (hy : y.isFinite = true) : x.lt y = true ↔ x.value < y.value := by
  rw [value, value, div_lt_div_iff_of_pos_right unitsPerOne_pos', Int.cast_lt]
  simp [F64.lt, isNaN_of_finite hx, isNaN_of_finite hy]

/-- An infinity is beyond every finite value, on the side of its sign. -/
theorem lt_of_infinite (hx : x.isInf = true) (hy : y.isFinite = true) : x.lt y = x.sign ∧ y.lt x = !x.sign := by
  have hy' := magnitude_lt hy
  simp only [isInf, Bool.and_eq_true, beq_iff_eq] at hx
  have hm : x.magnitude = rangeUnits := by
    rw [magnitude, hx.1, hx.2, if_neg (by norm_num), rangeUnits, Nat.add_zero, ← Nat.pow_add]
  have hn : x.isNaN = false := by simp [isNaN, hx.2]
  have hu := natAbs_units y
  have e : x.units = if x.sign then -(rangeUnits : Int) else rangeUnits := by rw [units, hm]
  simp only [F64.lt, hn, isNaN_of_finite hy, e]
  cases x.sign <;> simp <;> omega

end F64

/-- The machine's own arithmetic is monotone and exact on exactly representable results (R193). -/
theorem Binary64.ieee_monotoneExact : Binary64.ieee.MonotoneExact where
  add _ _ := F64.add_between
  sub x y hx hy := by
    have := F64.add_between hx (y := y.neg) (by simpa using hy)
    rwa [F64.value_neg, ← sub_eq_add_neg] at this
  mul _ _ := F64.mul_between
  div _ _ := F64.div_between
  ofInt i _ := F64.ofInt_between i
  trunc _ := F64.abs_trunc_le
  compare_finite _ _ hx hy := ⟨F64.eq_iff_value hx hy, F64.lt_iff_value hx hy, F64.lt_iff_value hy hx⟩
  compare_nan x y h := by simp [F64.lt, h, F64.gt]
  compare_infinite _ _ := F64.lt_of_infinite

end Sys2Proof
end

