-- ==== Sys2Proof/Laws/Operands.lean ====
section
/-! SUPPORT. The unsigned reading of each extraction, and the coefficient index. -/

namespace Sys2Proof.Machine

/-- Concatenation as arithmetic: the left pattern holds the high bits (R10). -/
theorem toNat_concat {n m : Nat} (a : BitVec n) (b : BitVec m) : (a ++ b).toNat = a.toNat * 2 ^ m + b.toNat := by
  rw [BitVec.toNat_append, ← Nat.shiftLeft_add_eq_or_of_lt b.isLt, Nat.shiftLeft_eq]

theorem toNat_lowNibble (b : Byte) : (b.extractLsb' 0 4).toNat = b.toNat % 16 := by
  simp [BitVec.extractLsb'_toNat]

theorem toNat_highNibble (b : Byte) : (b.extractLsb' 4 4).toNat = b.toNat / 16 := by
  have := b.isLt
  simp [BitVec.extractLsb'_toNat, Nat.shiftRight_eq_div_pow]
  omega

theorem extU16LE_toNat (lo hi : Byte) : (extU16LE lo hi).toNat = hi.toNat * 256 + lo.toNat := toNat_concat hi lo

theorem extS16LE_toNat (lo hi : Byte) : (extS16LE lo hi).toNat = hi.toNat * 256 + lo.toNat := toNat_concat hi lo

theorem extS12A_toNat (hb nb : Byte) : (extS12A hb nb).toNat = hb.toNat * 16 + nb.toNat % 16 :=
  (toNat_concat hb _).trans (by rw [toNat_lowNibble]; rfl)

theorem extS12B_toNat (nb hb : Byte) : (extS12B nb hb).toNat = hb.toNat * 16 + nb.toNat / 16 :=
  (toNat_concat hb _).trans (by rw [toNat_highNibble]; rfl)

theorem extU20BE_toNat (b0 b1 b2 : Byte) :
    (extU20BE b0 b1 b2).toNat = (b0.toNat * 256 + b1.toNat) * 16 + b2.toNat / 16 :=
  (toNat_concat (b0 ++ b1) _).trans (by rw [toNat_concat, toNat_highNibble]; rfl)

theorem extU16BE_toNat (b0 b1 : Byte) : (extU16BE b0 b1).toNat = b0.toNat * 256 + b1.toNat := toNat_concat b0 b1

theorem operand16_toNat (f1 f2 : Byte) : (operand16 f1 f2).toNat = f2.toNat * 256 + f1.toNat := toNat_concat f2 f1

/-- The 20-bit operand is legal exactly when the reserved nibble is 0 (R93, R96). -/
theorem operand20_eq_some {f1 f2 f3 : Byte} {adc : BitVec 20} :
    operand20 f1 f2 f3 = some adc ↔ f3.toNat < 16 ∧ adc.toNat = (f3.toNat * 256 + f2.toNat) * 256 + f1.toNat := by
  have hn : f3.extractLsb' 4 4 = 0#4 ↔ f3.toNat < 16 := by
    rw [← BitVec.toNat_inj, toNat_highNibble]
    simp only [BitVec.toNat_ofNat, Nat.zero_mod]
    omega
  have hv : (f3.extractLsb' 0 4 ++ f2 ++ f1 : BitVec 20).toNat = (f3.toNat % 16 * 256 + f2.toNat) * 256 + f1.toNat :=
    (toNat_concat (f3.extractLsb' 0 4 ++ f2) f1).trans (by rw [toNat_concat, toNat_lowNibble]; rfl)
  unfold operand20
  by_cases h : f3.toNat < 16
  · rw [if_pos (hn.2 h), Option.some_inj, ← BitVec.toNat_inj, hv, Nat.mod_eq_of_lt h]
    exact ⟨fun e => ⟨h, e.symm⟩, fun e => e.2.symm⟩
  · rw [if_neg (mt hn.1 h)]
    simp [h]

/-- The legal indices are those that name a coefficient (R85). -/
theorem coeffAt_isSome {k : Byte} (h : k.toNat ≤ 17) : ∃ c, coeffAt k = some c :=
  ⟨coeffOrder[k.toNat]'(by simp [coeffOrder]; omega), by simp [coeffAt]⟩

theorem coeffAt_none {k : Byte} (h : 17 < k.toNat) : coeffAt k = none := by
  simp [coeffAt, coeffOrder]; omega

end Sys2Proof.Machine
end

