-- ==== Sys2Proof/Laws/PerInstr.lean ====
section
/-! SUPPORT. What is said of every command as syntax, one lemma per constructor: its frame has the length of its opcode's format. -/

namespace Sys2Proof.Laws.EncodeLength

/-- The frame of a well-formed command has the length R81 gives its opcode. -/
def Statement (i : Instr) : Prop := i.wellFormed = true → (encode i).length = i.opcode.length

theorem chkid (id : Byte) : Statement (.chkid id) := fun _ => rfl

theorem ldcal (a b : List Byte) : Statement (.ldcal a b) := by
  intro h
  simp only [Instr.wellFormed, Bool.and_eq_true, beq_iff_eq] at h
  simp [encode, Instr.payload, Instr.opcode, Opcode.length, h.1, h.2]

theorem rdcal (k : Byte) : Statement (.rdcal k) := fun _ => rfl

theorem unpk (raw : List Byte) : Statement (.unpk raw) := by
  intro h
  simp only [Instr.wellFormed, beq_iff_eq] at h
  simp [encode, Instr.payload, Instr.opcode, Opcode.length, h]

theorem cmpt (adcT : BitVec 20) : Statement (.cmpt adcT) := fun _ => rfl

theorem cmpp (adcP : BitVec 20) : Statement (.cmpp adcP) := fun _ => rfl

theorem cmph (adcH : BitVec 16) : Statement (.cmph adcH) := fun _ => rfl

end Sys2Proof.Laws.EncodeLength
end

