-- ==== Sys2Proof/Laws/Run.lean ====
section
/-! SUPPORT. A frame's effect does not depend on what else the host has presented. -/

namespace Sys2Proof.Machine

/-- A command neither reads nor writes what the host has presented. -/
theorem exec_inbox (i : Instr) (s : State) (q : List HostEvent) :
    exec i { s with inbox := q } = andThen (exec i s) (fun t => .next { t with inbox := q }) := by
  cases i <;> simp only [exec, execChkid, checkIdentity, execLdcal, execRdcal, execUnpk, execCmpt, execCmpp, execCmph,
    compensateTemperature, compensatePressure, compensateHumidity, unlessHalted, whenCalibrated, whenWellFormed] <;> (repeat' split) <;> rfl

/-- Nor does running a frame. -/
theorem runFrame_inbox (f : Frame) (s : State) (q : List HostEvent) :
    runFrame f { s with inbox := q } = andThen (runFrame f s) (fun t => .next { t with inbox := q }) := by
  unfold runFrame
  dsimp only
  split
  · rfl
  · split
    · rfl
    · exact exec_inbox _ _ _

end Sys2Proof.Machine
end

