-- ==== Sys2Proof/Tests/Slice0.lean ====
section
/-! SUPPORT. Tests whose expected values are the spec's own (the vector V<n> of 95_test_vectors.md or the rule named), and for every statement with hypotheses a witness that meets them. -/

namespace Sys2Proof.Tests

open Machine

set_option exponentiation.threshold 4096

/-! ## Small data -/

/-- Block A of V30. -/
def a30 : List Byte :=
  [0x70, 0x6B, 0x43, 0x67, 0x18, 0xFC, 0x7D, 0x8E, 0x43, 0xD6, 0xD0, 0x0B, 0x27, 0x0B, 0x8C, 0x00,
   0xF9, 0xFF, 0x8C, 0x3C, 0xF8, 0xC6, 0x70, 0x17, 0x00, 0x4B]

/-- Block B of V30. -/
def b30 : List Byte := [0x6A, 0x01, 0x00, 0x14, 0x24, 0x03, 0x1E]

/-- The burst of V35. -/
def burst35 : List Byte := [0x65, 0x5A, 0xC0, 0x7E, 0xED, 0x00, 0x75, 0x30]

/-- The eighteen integers of V30, as patterns. -/
def c30 : CalibrationSet where
  temp := ⟨27504, 26435, -1000⟩
  press := ⟨36477, -10685, 3024, 2855, 140, -7, 15500, -14600, 6000⟩
  hum := ⟨75, 362, 0, 324, 50, 30⟩

/-- A block with these flags, registers and temperature-fine value, nothing presented and nothing answered. -/
def block (fl : Flags) (cal : Option CalibrationSet) (tf : BitVec 32) : State :=
  { cal := cal, tFine := tf, flags := fl, inbox := [], outbox := [] }

/-- After a matching CHKID. -/
def checked : State := block ⟨true, false, false, false⟩ none 0

/-- After a matching CHKID and the LDCAL of V30. -/
def calibrated : State := block ⟨true, true, false, false⟩ (some c30) 0

/-- After the CMPT of V40 too. -/
def warmed : State := block ⟨true, true, true, false⟩ (some c30) 128422

/-- After a mismatching CHKID. -/
def halted : State := block ⟨false, false, false, true⟩ none 0

/-- A result that is a next state with this property. -/
def answers (r : Result) (p : State → Bool) : Bool :=
  match r with
  | .next t => p t
  | .fault _ => false
  | .refused _ => false

/-- Running a frame in s answers exactly this response and leaves this block state. -/
def runsTo (s : State) (f : Frame) (r : Frame) (t : State) : Bool :=
  answers (runFrame f s) (fun u => u == { t with outbox := s.outbox ++ [r] })

/-! ## Well-formedness: one ill-formed term for each check, and the legal neighbour -/

theorem test_wellFormed_blockA : (Instr.ldcal (a30.take 25) b30).wellFormed = false := by decide
theorem test_wellFormed_blockB : (Instr.ldcal a30 (b30.take 6)).wellFormed = false := by decide
theorem test_wellFormed_index : (Instr.rdcal 18).wellFormed = false := by decide
theorem test_wellFormed_burst : (Instr.unpk (burst35.take 7)).wellFormed = false := by decide
theorem test_wellFormed_legal :
    (Instr.ldcal a30 b30).wellFormed && (Instr.rdcal 17).wellFormed && (Instr.unpk burst35).wellFormed = true := by decide

/-! ## Decoding: each constructor by a frame written out from R83 to R89 -/

theorem test_decode_chkid : decode [0x01, 0x60] = .ok (.chkid 0x60) := by decide
theorem test_decode_ldcal : decode
    [0x02, 0x70, 0x6B, 0x43, 0x67, 0x18, 0xFC, 0x7D, 0x8E, 0x43, 0xD6, 0xD0, 0x0B, 0x27, 0x0B, 0x8C, 0x00, 0xF9,
     0xFF, 0x8C, 0x3C, 0xF8, 0xC6, 0x70, 0x17, 0x00, 0x4B, 0x6A, 0x01, 0x00, 0x14, 0x24, 0x03, 0x1E] =
    .ok (.ldcal a30 b30) := by decide
theorem test_decode_rdcal : decode [0x03, 0x11] = .ok (.rdcal 17) := by decide
theorem test_decode_unpk : decode [0x04, 0x65, 0x5A, 0xC0, 0x7E, 0xED, 0x00, 0x75, 0x30] = .ok (.unpk burst35) := by decide
theorem test_decode_cmpt : decode [0x05, 0xD0, 0xEE, 0x07] = .ok (.cmpt 519888) := by decide
theorem test_decode_cmpp : decode [0x06, 0xAC, 0x55, 0x06] = .ok (.cmpp 415148) := by decide
theorem test_decode_cmph : decode [0x07, 0x30, 0x75] = .ok (.cmph 30000) := by decide

/-- V80 to V87: what decode rejects, each by its check (R98). -/
theorem test_decode_rejects :
    decode [] = .error .emptyFrame ∧ decode [0x00] = .error .unknownOpcode ∧ decode [0x08] = .error .unknownOpcode ∧
    decode [0x05, 0x00, 0x00] = .error .wrongLength ∧ decode [0x05, 0x00, 0x00, 0x10] = .error .reservedOperand ∧
    decode [0x03, 0x12] = .error .reservedOperand ∧ decode (0x02 :: (a30 ++ b30.take 6)) = .error .wrongLength ∧
    decode [0x07, 0x30, 0x75, 0x00] = .error .wrongLength := by decide

/-- The host's numbering of a row's bits: F[0] lowest. -/
theorem test_decodeTableWord : decodeTableWord 16 0x6001 = some (.chkid 0x60) ∧
    decodeTableWord 24 0x753007 = some (.cmph 30000) ∧ decodeTableWord 8 0x05 = some (.cmpt 0) ∧
    decodeTableWord 8 0x08 = none := by decide

/-! ## The meanings, each on a vector of the spec -/

/-- P1 line 1. -/
theorem test_chkid_match : runsTo State.reset [0x01, 0x60] [0x00] checked = true := by decide +kernel
/-- V96. -/
theorem test_chkid_mismatch : runsTo State.reset [0x01, 0x61] [0x01] halted = true := by decide +kernel

/-- V30: the decoded set, coefficient by coefficient. -/
theorem test_ldcal_v30 : runsTo checked (encode (.ldcal a30 b30)) [0x00] calibrated = true := by decide +kernel
/-- V90: LDCAL before a matching CHKID. -/
theorem test_ldcal_unchecked : runsTo State.reset (encode (.ldcal a30 b30)) [0x02] State.reset = true := by decide +kernel

/-- R152's example: RDCAL T3 after V30. -/
theorem test_rdcal_t3 : runsTo calibrated [0x03, 0x02] [0x00, 0x18, 0xFC, 0xFF, 0xFF] calibrated = true := by decide +kernel
/-- P1 line 8: RDCAL H4. -/
theorem test_rdcal_h4 : runsTo calibrated [0x03, 0x0F] [0x00, 0x44, 0x01, 0x00, 0x00] calibrated = true := by decide +kernel

/-- V35, V93: UNPK needs nothing. -/
theorem test_unpk_v35 : runsTo State.reset (0x04 :: burst35)
    [0x00, 0xAC, 0x55, 0x06, 0xD0, 0xEE, 0x07, 0x30, 0x75] State.reset = true := by decide +kernel
/-- V39. -/
theorem test_unpk_v39 : runsTo calibrated [0x04, 0xFF, 0xFF, 0x0F, 0x00, 0x00, 0x0F, 0x12, 0x34]
    [0x00, 0xF0, 0xFF, 0x0F, 0x00, 0x00, 0x00, 0x34, 0x12] calibrated = true := by decide +kernel

/-- V40. -/
theorem test_cmpt_v40 : runsTo calibrated [0x05, 0xD0, 0xEE, 0x07]
    [0x00, 0x00, 0x80, 0x0F, 0x46, 0x1D, 0x15, 0x39, 0x40, 0xA6, 0xF5, 0x01, 0x00] warmed = true := by decide +kernel
/-- V41: a negative sum is truncated toward zero. -/
theorem test_cmpt_v41 : answers (exec (.cmpt 0) warmed)
    (fun t => t.tFine == BitVec.ofInt 32 (-721299)) = true := by decide +kernel

/-- V51. -/
theorem test_cmpp_v51 : runsTo warmed [0x06, 0xAC, 0x55, 0x06]
    [0x00, 0xFD, 0xF1, 0x0F, 0xBA, 0x42, 0x74, 0x8F, 0x40] warmed = true := by decide +kernel
/-- V54: the bracket is zero and P1 is not. -/
theorem test_cmpp_v54 : pDenominator .ieee ⟨36477, -32768, 0, 2855, 140, -7, 15500, -14600, 6000⟩ 1176576 = ⟨0#64⟩ ∧
    defaultPFormula .ieee Config.nanBits 415148 ⟨36477, -32768, 0, 2855, 140, -7, 15500, -14600, 6000⟩ 1176576 =
      ⟨0x7FF8000000000000#64⟩ := by decide +kernel

/-- V61. -/
theorem test_cmph_v61 : runsTo warmed [0x07, 0x30, 0x75]
    [0x00, 0xE4, 0x25, 0x7A, 0x6A, 0xA4, 0x8A, 0x49, 0x40] warmed = true := by decide +kernel
/-- V63, V64 and V65: clamped high, clamped low, and a negative zero that passes. -/
theorem test_cmph_clamp : (clampHumidity .ieee (defaultHFormula .ieee 65535 c30.hum 128422)).bits = 0x4059000000000000#64 ∧
    (clampHumidity .ieee (defaultHFormula .ieee 0 c30.hum 128422)).bits = 0x0000000000000000#64 ∧
    (clampHumidity .ieee (defaultHFormula .ieee 0 { c30.hum with h2 := 0 } 128422)).bits = 0x8000000000000000#64 := by decide +kernel

/-- V98: Halted outranks IllegalCommand. -/
theorem test_halted_illegal : runsTo halted [0xFF] [0x05] halted = true := by decide +kernel

/-- R187's own examples. -/
theorem test_trunc : (F64.mk 0x40FF5A6497936000#64).trunc.toInt = 128422 ∧
    (F64.mk 0xC0772E446CA00000#64).trunc.toInt = -370 ∧ (F64.mk 0xBFE0000000000000#64).trunc.toInt = 0 := by decide +kernel

/-- R184's own example: (-3.0) *. 0.0 = -0.0; and R183: the zero sum of opposite signs is +0.0. -/
theorem test_signed_zero : ((F64.ofInt (-3)).mul (F64.ofInt 0)).bits = 0x8000000000000000#64 ∧
    ((F64.ofInt 0).add ⟨0x8000000000000000#64⟩).bits = 0#64 := by decide +kernel

/-- The assembler notation of R100, on R152's example. -/
theorem test_asm : asmLine (.rdcal 2) = "RDCAL  T3" ∧ responseText [0x00, 0x18, 0xFC, 0xFF, 0xFF] = "-> OK 18 FC FF FF" ∧
    responseText [0x05] = "-> FAULT Halted" := by decide +kernel

/-! ## Witnesses: the hypotheses of each statement, met together -/

/-- The invariant holds of the blocks used below. -/
theorem inv_calibrated : calibrated.Inv := ⟨rfl, fun _ => rfl, by decide, fun _ => rfl, by decide, by decide⟩
theorem inv_warmed : warmed.Inv := ⟨rfl, fun _ => rfl, fun _ => rfl, by decide, by decide, by decide⟩
theorem inv_halted : halted.Inv := ⟨rfl, by decide, by decide, fun _ => rfl, by decide, by decide⟩
theorem ready_calibrated : calibrated.ready := ⟨rfl, rfl⟩
theorem ready_warmed : warmed.ready := ⟨rfl, rfl⟩

theorem witness_ResetEventGivesResetState :
    ({ halted with inbox := [.reset, .frame []] } : State).inbox = .reset :: [.frame []] := rfl

theorem witness_IdleBlockKeepsItsState : warmed.inbox = [] := rfl

theorem witness_StepRunsTheDecodedCommand :
    (calibrated.presentFirst (.frame [0x07, 0xFF, 0xFF])).inbox = .frame [0x07, 0xFF, 0xFF] :: [] ∧
      decode [0x07, 0xFF, 0xFF] = .ok (.cmph 65535) := by decide

theorem witness_StepAnswersIllegalCommand :
    (calibrated.presentFirst (.frame [])).inbox = .frame [] :: [] ∧ calibrated.flags.halt = false ∧
      decode [] = .error .emptyFrame := by decide

theorem witness_HaltedOutranksDecode :
    (halted.presentFirst (.frame [0xFF])).inbox = .frame [0xFF] :: [] ∧ halted.flags.halt = true := by decide

theorem witness_RunIsTheFoldOfTheFrames :
    ∃ t, runFrames [[0x01, 0x60], [0x08]] { State.reset with inbox := [.reset] } = .next t := ⟨_, rfl⟩

/-- One frame for each of the five faults, and one that completes. -/
theorem witness_FaultPriorityAndEffect :
    expectedStatus [0x01, 0x61] calibrated = 0x01#8 ∧ expectedStatus [0x05, 0x00, 0x00, 0x00] checked = 0x02#8 ∧
    expectedStatus (encode (.ldcal a30 b30)) calibrated = 0x03#8 ∧ expectedStatus [0x03, 0x12] calibrated = 0x04#8 ∧
    expectedStatus [] halted = 0x05#8 ∧ expectedStatus [0x03, 0x11] calibrated = 0x00#8 := by decide +kernel

theorem witness_OkResponseLengths : ∃ t, exec (.rdcal 17) calibrated = .next t ∧
    t.outbox = calibrated.outbox ++ [[0x00, 0x1E, 0x00, 0x00, 0x00]] ∧
    List.head? [0x00#8, 0x1E, 0x00, 0x00, 0x00] = some 0x00#8 := ⟨_, rfl, by decide, rfl⟩

theorem witness_SequenceErrorWithoutPrerequisite :
    State.reset.flags.halt = false ∧ a30.length = 26 ∧ b30.length = 7 ∧ State.reset.flags.idOk = false ∧
    checked.flags.halt = false ∧ checked.flags.calValid = false ∧ (17#8).toNat ≤ 17 ∧ (0#8).toNat ≤ 17 ∧
    calibrated.flags.halt = false ∧ calibrated.flags.calValid = true ∧ calibrated.flags.tfValid = false := by decide

theorem witness_HaltIsPermanentUntilReset : halted.flags.halt = true := rfl

theorem witness_ChkidSetsIdOkOrHalts : halted.flags.halt = true ∧ State.reset.flags.halt = false ∧
    0x60#8 = Config.expectedId ∧ 0x61#8 ≠ Config.expectedId ∧ 0x5F#8 ≠ Config.expectedId := by decide

/-- One block for each of the four outcomes of LDCAL. -/
theorem witness_LdcalWritesTheDecodedSet : a30.length = 26 ∧ b30.length = 7 ∧ halted.flags.halt = true ∧
    (State.reset.flags.halt = false ∧ State.reset.flags.idOk = false) ∧
    (calibrated.flags.halt = false ∧ calibrated.flags.idOk = true ∧ calibrated.flags.calValid = true) ∧
    (checked.flags.halt = false ∧ checked.flags.idOk = true ∧ checked.flags.calValid = false) := by decide

theorem witness_LdcalTemperatureAndPressureValues : a30.length = 26 ∧ b30.length = 7 ∧ checked.flags.halt = false ∧
    checked.flags.idOk = true ∧ checked.flags.calValid = false := by decide

theorem witness_LdcalHumidityValues : a30.length = 26 ∧ b30.length = 7 ∧ checked.flags.halt = false ∧
    checked.flags.idOk = true ∧ checked.flags.calValid = false := by decide

theorem witness_CalibrationIsImmutableInASession : calibrated.Inv ∧ calibrated.flags.calValid = true ∧
    (∃ t, runFrames [encode (.ldcal b30 a30), [0x01, 0x60]] calibrated = .next t) ∧
    a30.length = 26 ∧ b30.length = 7 ∧ calibrated.flags.halt = false :=
  ⟨inv_calibrated, rfl, ⟨_, rfl⟩, rfl, rfl, rfl⟩

/-- The indices at which the clauses of RDCAL meet. -/
theorem witness_RdcalAnswersTheCoefficient : halted.flags.halt = true ∧
    (checked.flags.halt = false ∧ 17 < (18#8).toNat) ∧
    (checked.flags.halt = false ∧ (17#8).toNat ≤ 17 ∧ checked.flags.calValid = false) ∧
    (calibrated.flags.halt = false ∧ calibrated.flags.calValid = true ∧ calibrated.cal = some c30 ∧
      (coeffWords c30)[(17#8).toNat]? = some 30 ∧ (coeffWords c30)[(0#8).toNat]? = some 27504) := by decide

theorem witness_RdcalCompletes : calibrated.ready ∧ (17#8).toNat ≤ 17 := ⟨ready_calibrated, by decide⟩

theorem witness_UnpkAnswersTheCounts : burst35.length = 8 ∧ halted.flags.halt = true ∧ State.reset.flags.halt = false := by
  decide

theorem witness_UnpkIgnoresLowNibblesAndIsOnto : burst35.length = 8 ∧
    (0xCF#8).extractLsb' 4 4 = (burst35.getD 2 0#8).extractLsb' 4 4 ∧
    (0x0F#8).extractLsb' 4 4 = (burst35.getD 5 0#8).extractLsb' 4 4 := by decide

/-- The three blocks of CMPT, CMPP and CMPH: halted, without a CalibrationSet, ready. -/
theorem witness_CmptWritesTemperatureFine : halted.flags.halt = true ∧
    (checked.flags.halt = false ∧ checked.flags.calValid = false) ∧
    (calibrated.flags.halt = false ∧ calibrated.flags.calValid = true) := by decide

theorem witness_CmppAnswersThePressure : halted.flags.halt = true ∧
    (checked.flags.halt = false ∧ checked.flags.calValid = false) ∧
    (warmed.flags.halt = false ∧ warmed.flags.calValid = true) := by decide

theorem witness_CmphAnswersTheHumidity : halted.flags.halt = true ∧
    (checked.flags.halt = false ∧ checked.flags.calValid = false) ∧
    (warmed.flags.halt = false ∧ warmed.flags.calValid = true) := by decide

theorem witness_TemperatureFineIsBounded : warmed.ready ∧ ∃ t, exec (.cmpt 1048575) warmed = .next t :=
  ⟨ready_warmed, _, exec_cmpt_of_ready _ rfl rfl⟩

/-- P1 = 0, and V54: a zero denominator with P1 ≠ 0. -/
theorem witness_ZeroDenominatorAnswersNaN :
    (block ⟨true, true, false, false⟩ (some { c30 with press := { c30.press with p1 := 0 } }) 0).ready ∧
    (block ⟨true, true, false, false⟩ (some { c30 with press := { c30.press with p1 := 0 } }) 0).calRegs.press.p1 = 0#16 ∧
    (pDenominator .ieee ⟨36477, -32768, 0, 2855, 140, -7, 15500, -14600, 6000⟩ 1176576).eq (F64.ofInt 0) = true :=
  ⟨⟨rfl, rfl⟩, rfl, by decide +kernel⟩

/-- V51's coefficients. -/
theorem witness_PressureIsFiniteForNonzeroDenominator :
    (pDenominator .ieee c30.press 128422).eq (F64.ofInt 0) = false := by decide +kernel

/-- Coefficients that give the unclamped humidity adc_h / 4. -/
def quarter : HumCoeffs := ⟨0, 16384, 0, 0, 0, 0⟩

/-- V63, V64 and V61: unclamped humidity above, below and inside the range; V66 and R184: +0.0 with H2 = 0 and V65's -0.0; and exactly
100.0, a quarter of 400. -/
theorem witness_HumidityIsClamped : warmed.ready ∧
    100 < (defaultHFormula .ieee 65535 c30.hum 128422).value ∧ (defaultHFormula .ieee 0 c30.hum 128422).value < 0 ∧
    (0 ≤ (defaultHFormula .ieee 30000 c30.hum 128422).value ∧ (defaultHFormula .ieee 30000 c30.hum 128422).value ≤ 100) ∧
    (defaultHFormula .ieee 65535 { c30.hum with h2 := 0 } 128422).bits = 0x0000000000000000#64 ∧
    (defaultHFormula .ieee 0 { c30.hum with h2 := 0 } 128422).bits = 0x8000000000000000#64 ∧
    (defaultHFormula .ieee 400 quarter 128422).bits = 0x4059000000000000#64 ∧
    (block ⟨true, true, true, false⟩ (some { c30 with hum := quarter }) 128422).ready ∧
    (block ⟨true, true, true, false⟩ (some { c30 with hum := quarter }) 128422).calRegs.hum = quarter :=
  ⟨ready_warmed, by decide +kernel, by decide +kernel, by decide +kernel, by decide +kernel, by decide +kernel,
    by decide +kernel, ⟨rfl, rfl⟩, rfl⟩

theorem witness_ZeroCarryBeforeAnyCmpt : calibrated.Inv ∧ calibrated.ready ∧ calibrated.flags.tfValid = false :=
  ⟨inv_calibrated, ready_calibrated, rfl⟩

/-- Two blocks that share a group and differ elsewhere. -/
theorem witness_CompensationDependsOnlyOnItsInputs : calibrated.ready ∧
    (block ⟨true, true, true, false⟩ (some { c30 with temp := ⟨1, 2, 3⟩ }) 0).ready ∧
    calibrated.calRegs.press = (block ⟨true, true, true, false⟩ (some { c30 with temp := ⟨1, 2, 3⟩ }) 0).calRegs.press ∧
    calibrated.calRegs.hum = (block ⟨true, true, true, false⟩ (some { c30 with temp := ⟨1, 2, 3⟩ }) 0).calRegs.hum ∧
    calibrated.tFine = (block ⟨true, true, true, false⟩ (some { c30 with temp := ⟨1, 2, 3⟩ }) 0).tFine ∧
    calibrated.calRegs.temp = warmed.calRegs.temp ∧ warmed.ready :=
  ⟨ready_calibrated, ⟨rfl, rfl⟩, rfl, rfl, rfl, rfl, ready_warmed⟩

/-- Each command answers a next state in a ready block. -/
theorem witness_CommandFrames : (∃ t, exec (.chkid 0x60) calibrated = .next t) ∧
    (∃ t, exec (.ldcal a30 b30) checked = .next t) ∧ (∃ t, exec (.rdcal 17) calibrated = .next t) ∧
    (∃ t, exec (.unpk burst35) calibrated = .next t) ∧ (∃ t, exec (.cmpt 0) calibrated = .next t) ∧
    (∃ t, exec (.cmpp 0) calibrated = .next t) ∧ (∃ t, exec (.cmph 0) calibrated = .next t) :=
  ⟨⟨_, rfl⟩, ⟨_, rfl⟩, ⟨_, rfl⟩, ⟨_, rfl⟩, ⟨_, exec_cmpt_of_ready _ rfl rfl⟩, ⟨_, exec_cmpp_of_ready _ rfl rfl⟩,
    ⟨_, exec_cmph_of_ready _ rfl rfl⟩⟩

/-- A step of an idle block, of a CMPT, of a frame in a halted block and of a reset. -/
theorem witness_EveryStepKeepsTheInvariant :
    (warmed.Inv ∧ ∃ t, step warmed = .next t) ∧ (halted.Inv ∧ ∃ t, step halted = .next t) ∧
    ∃ t, step (warmed.presentFirst .reset) = .next t :=
  ⟨⟨inv_warmed, _, rfl⟩, ⟨inv_halted, _, rfl⟩, _, rfl⟩

theorem witness_OnlyResetClearsAFlag : (∃ t, step (calibrated.presentFirst (.frame [0x01, 0x61])) = .next t) ∧
    (∀ rest, (calibrated.presentFirst (.frame [0x01, 0x61])).inbox ≠ .reset :: rest) ∧ calibrated.flags.calValid = true :=
  ⟨⟨_, rfl⟩, by simp, rfl⟩

theorem witness_RepeatedCommandAnswersAlike :
    ((Instr.rdcal 18).opcode ≠ .chkid ∧ (Instr.rdcal 18).opcode ≠ .ldcal ∧ ∃ t, exec (.rdcal 18) calibrated = .next t) ∧
    ((Instr.cmpt 0).opcode ≠ .chkid ∧ (Instr.cmpt 0).opcode ≠ .ldcal ∧ ∃ t, exec (.cmpt 0) warmed = .next t) :=
  ⟨⟨by decide, by decide, _, rfl⟩, by decide, by decide, _, exec_cmpt_of_ready _ rfl rfl⟩

/-- V40: the block of `warmed` carries the count 519888. -/
theorem witness_CarryLastsUntilTheNextCmpt : calibrated.ready ∧ (∃ t, exec (.cmpt 519888) calibrated = .next t) ∧
    warmed.Inv ∧ warmed.carries 519888 ∧ (∀ a, Instr.cmpp 0 ≠ .cmpt a) ∧ ∃ t, exec (.cmpp 0) warmed = .next t :=
  ⟨ready_calibrated, ⟨_, exec_cmpt_of_ready _ rfl rfl⟩, inv_warmed, ⟨rfl, by decide +kernel⟩, nofun,
    _, exec_cmpp_of_ready _ rfl rfl⟩

theorem witness_InitChecksThenCalibrates : a30.length = 26 ∧ b30.length = 7 ∧ State.reset.flags.halt = false ∧
    State.reset.flags.calValid = false ∧ 0x60#8 = Config.expectedId ∧ 0x58#8 ≠ Config.expectedId := by decide

theorem witness_CycleIsAFunctionOfTheBurst : burst35.length = 8 ∧ warmed.ready := ⟨rfl, ready_warmed⟩

theorem witness_DecodeOfEncode : (Instr.cmpt 1048575).wellFormed = true ∧ (Instr.rdcal 17).wellFormed = true ∧
    (Instr.ldcal a30 b30).wellFormed = true := by decide

theorem witness_EncodeOfDecode : decode [0x06, 0xFF, 0xFF, 0x0F] = .ok (.cmpp 1048575) := by decide

/-- The values at which the checks of R98 meet. -/
theorem witness_DecodeRejectsByTheFirstFailingCheck :
    (0x00#8).toNat = 0 ∧ 8 ≤ (0x08#8).toNat ∧ 0x07#8 = Opcode.cmph.code ∧
    [0x30#8, 0x75, 0x00].length + 1 ≠ Opcode.cmph.length ∧ [0x30#8, 0x75].length + 1 = Opcode.cmph.length ∧
    ([0x12#8].length + 1 = Opcode.rdcal.length ∧ 17 < byteNat [0x12] 0 ∧ ¬ 17 < byteNat [0x11] 0) ∧
    ([0x00#8, 0x00, 0x10].length + 1 = Opcode.cmpt.length ∧ 16 ≤ byteNat [0x00, 0x00, 0x10] 2 ∧
      ¬ 16 ≤ byteNat [0xFF, 0xFF, 0x0F] 2) := by decide

theorem witness_LittleEndianBytes : 7 < 8 ∧ 0 < 8 := by decide

/-- Each width at its least M and at 32, and the two patterns on each side of the sign bit. -/
theorem witness_FoldIsTwosComplement : (8 ≤ 8 ∧ 8 ≤ 32) ∧ (12 ≤ 12 ∧ 12 ≤ 32) ∧ (16 ≤ 16 ∧ 16 ≤ 32) ∧
    foldSigned 8 0x7F = 127 ∧ foldSigned 8 0x80 = -128 ∧ foldSigned 12 0x7FF = 2047 ∧ foldSigned 12 0x800 = -2048 ∧
    foldSigned 16 0x7FFF = 32767 ∧ foldSigned 16 0x8000 = -32768 := by decide

theorem witness_ExtractionRoundTrip : (-32768 ≤ (-32768 : Int) ∧ (32767 : Int) ≤ 32767) ∧
    (-128 ≤ (-128 : Int) ∧ (127 : Int) ≤ 127) ∧ (-2048 ≤ (-2048 : Int) ∧ (2047 : Int) ≤ 2047 ∧ 15 < 16) := by decide

theorem witness_IntegerConversionIsExact : (-(2 ^ 53 - 1) : Int).natAbs < 2 ^ 53 := by decide

/-- 1.0 and 3.0. -/
theorem witness_ArithmeticRoundsOnceToNearestEven :
    (F64.ofInt 1).isFinite = true ∧ (F64.ofInt 3).isFinite = true ∧
    |(F64.ofInt 1).value + (F64.ofInt 3).value| < F64.overflowBound ∧
    |(F64.ofInt 1).value - (F64.ofInt 3).value| < F64.overflowBound ∧
    |(F64.ofInt 1).value * (F64.ofInt 3).value| < F64.overflowBound ∧
    (F64.ofInt 3).value ≠ 0 ∧ |(F64.ofInt 1).value / (F64.ofInt 3).value| < F64.overflowBound := by decide +kernel

/-- 2^1023 times 2. -/
theorem witness_OverflowGivesInfinity : (F64.mk 0x7FE0000000000000#64).isFinite = true ∧ (F64.ofInt 2).isFinite = true ∧
    F64.overflowBound ≤ |(F64.mk 0x7FE0000000000000#64).value * (F64.ofInt 2).value| := by decide +kernel

/-- 3.0 and -3.0, 3.0 and 3.0. -/
theorem witness_SignsOfZeroResults : (F64.ofInt 3).isFinite = true ∧ (F64.ofInt (-3)).isFinite = true ∧
    (F64.ofInt 3).value + (F64.ofInt (-3)).value = 0 ∧ (F64.ofInt 3).value - (F64.ofInt 3).value = 0 ∧
    (F64.ofInt 3).value ≠ 0 := by decide +kernel

theorem witness_ComparisonsAreThoseOfTheReals : (F64.ofInt 0).isFinite = true ∧
    (F64.mk 0x8000000000000000#64).isFinite = true ∧ Config.nanBits.isNaN = true := by decide +kernel

/-- Just below 2^31, and its negation. -/
theorem witness_TruncationIsTowardZero : (F64.ofInt 2147483647).isFinite = true ∧
    |(F64.ofInt 2147483647).value| < 2 ^ 31 ∧ |(F64.ofInt (-2147483647)).value| < 2 ^ 31 := by decide +kernel

/-- The greatest count in a ready block, with the machine's arithmetic. -/
theorem witness_TemperatureFineBoundForAnyArithmetic : Binary64.ieee.MonotoneExact ∧ warmed.ready :=
  ⟨Binary64.ieee_monotoneExact, ready_warmed⟩

/-- P1 = 0 (a zero denominator), V54 (one with P1 ≠ 0) and V51 (none). -/
theorem witness_ZeroDenominatorGuardForAnyArithmetic : Binary64.ieee.MonotoneExact ∧
    (block ⟨true, true, false, false⟩ (some { c30 with press := { c30.press with p1 := 0 } }) 0).ready ∧
    (block ⟨true, true, false, false⟩ (some { c30 with press := { c30.press with p1 := 0 } }) 0).calRegs.press.p1 = 0#16 ∧
    Binary64.ieee.eq (pDenominator .ieee ⟨36477, -32768, 0, 2855, 140, -7, 15500, -14600, 6000⟩ 1176576)
      (Binary64.ieee.ofInt 0) = true ∧
    warmed.ready ∧ Binary64.ieee.eq (pDenominator .ieee c30.press 128422) (Binary64.ieee.ofInt 0) = false :=
  ⟨Binary64.ieee_monotoneExact, ⟨rfl, rfl⟩, rfl, by decide +kernel, ready_warmed, by decide +kernel⟩

/-- What a formula may give: a NaN, the bounds of the range, a value on each side of it, the two infinities. -/
theorem witness_HumidityClampForAnyArithmetic : Binary64.ieee.MonotoneExact ∧ warmed.ready ∧
    Config.nanBits.isNaN = true ∧
    ((F64.ofInt 0).isFinite = true ∧ (F64.ofInt 0).isNaN = false ∧ 0 ≤ (F64.ofInt 0).value ∧ (F64.ofInt 0).value ≤ 100) ∧
    ((F64.ofInt 100).isFinite = true ∧ 0 ≤ (F64.ofInt 100).value ∧ (F64.ofInt 100).value ≤ 100) ∧
    ((F64.ofInt 101).isFinite = true ∧ 100 < (F64.ofInt 101).value) ∧
    ((F64.ofInt (-1)).isFinite = true ∧ (F64.ofInt (-1)).value < 0) ∧
    (F64.infinity true).isInf = true ∧ (F64.infinity false).isInf = true :=
  ⟨Binary64.ieee_monotoneExact, ready_warmed, by decide +kernel⟩

end Sys2Proof.Tests
end

section
/-! PROOF. The state family: what a calibrated block keeps along a run of frames (R24), and the state after reset (R35). -/

namespace Sys2Proof.Machine

variable {s t : State}

/-! ## Runs of frames -/

/-- What every frame keeps, every run of frames keeps. -/
theorem runFrames_keeps {P : State → Prop} (hframe : ∀ f s t, runFrame f s = .next t → P s → P t) :
    ∀ {fs : List Frame} {s t : State}, runFrames fs s = .next t → P s → P t
  | [], _, _, hrun, hs => Host.Outcome.next.inj hrun ▸ hs
  | f :: fs, s, t, hrun, hs => by
    rw [runFrames] at hrun
    cases hf : runFrame f s with
    | next s' =>
      rw [hf, andThen_next] at hrun
      exact runFrames_keeps hframe hrun (hframe f s s' hf hs)
    | fault r => exact nomatch r
    | refused r => simp [hf, andThen] at hrun

/-! ## Commands refused without an effect -/

/-- RDCAL of a legal index in a block without a CalibrationSet is a SequenceError (R152, R242). -/
theorem exec_rdcal_of_uncalibrated {k : Byte} (hk : k.toNat ≤ 17) (hh : s.flags.halt = false)
    (hc : s.flags.calValid = false) : exec (.rdcal k) s = .next (s.respond [0x02#8]) := by
  obtain ⟨c, hcoeff⟩ := coeffAt_isSome hk
  simp only [exec, execRdcal, unlessHalted_of_running hh, hcoeff]
  exact whenCalibrated_of_absent hc _

/-- LDCAL in a block that has a CalibrationSet is CalibrationLocked (R131, R243). -/
theorem exec_ldcal_of_calibrated {a b : List Byte} (ha : a.length = 26) (hb : b.length = 7)
    (hh : s.flags.halt = false) (hi : s.flags.idOk = true) (hc : s.flags.calValid = true) :
    exec (.ldcal a b) s = .next (s.respond [0x03#8]) := by
  rw [exec, execLdcal, unlessHalted_of_running hh, whenWellFormed_of_wf (by simp [Instr.wellFormed, ha, hb])]
  simp [hi, hc, raise_eq, BlockFault.code]

/-! ## What no frame changes in a calibrated block -/

/-- No fault writes the registers (R249). -/
@[simp] theorem effect_cal (f : BlockFault) (s : State) : (f.effect s).cal = s.cal := by cases f <;> rfl

/-- No fault writes CAL_VALID (R249). -/
@[simp] theorem effect_calValid (f : BlockFault) (s : State) : (f.effect s).flags.calValid = s.flags.calValid := by
  cases f <;> rfl

theorem raise_keeps_cal {f : BlockFault} (h : raise f s = .next t) :
    t.cal = s.cal ∧ t.flags.calValid = s.flags.calValid := by
  obtain rfl := Host.Outcome.next.inj h
  simp

theorem ok_keeps_cal {p : List Byte} (h : ok p s = .next t) :
    t.cal = s.cal ∧ t.flags.calValid = s.flags.calValid := by
  obtain rfl := Host.Outcome.next.inj h
  simp

/-- LDCAL is the one command that writes `CAL` or CAL_VALID, and it does so only while CAL_VALID is 0 (R131). -/
theorem exec_keeps_cal {i : Instr} (hc : s.flags.calValid = true) (h : exec i s = .next t) :
    t.cal = s.cal ∧ t.flags.calValid = s.flags.calValid := by
  obtain ⟨f, he⟩ | ⟨p, he⟩ | ⟨id, -, -, he⟩ | ⟨a, b, -, -, -, habsent, -, -⟩ | ⟨adcT, -, -, -, he⟩ := exec_cases i s
  · exact raise_keeps_cal (he.symm.trans h)
  · exact ok_keeps_cal (he.symm.trans h)
  · simpa using ok_keeps_cal (he.symm.trans h)
  · simp [hc] at habsent
  · simpa using ok_keeps_cal (he.symm.trans h)

theorem runFrame_keeps_cal {f : Frame} (hc : s.flags.calValid = true) (h : runFrame f s = .next t) :
    t.cal = s.cal ∧ t.flags.calValid = s.flags.calValid := by
  obtain ⟨-, he⟩ | ⟨-, -, he⟩ | ⟨-, i, -, he⟩ := runFrame_cases f s
  · exact raise_keeps_cal (he.symm.trans h)
  · exact raise_keeps_cal (he.symm.trans h)
  · exact exec_keeps_cal hc (he.symm.trans h)

theorem runFrames_keeps_cal {fs : List Frame} (hc : s.flags.calValid = true) (h : runFrames fs s = .next t) :
    t.cal = s.cal ∧ t.flags.calValid = true := by
  refine runFrames_keeps (P := fun u => u.cal = s.cal ∧ u.flags.calValid = true) ?_ h ⟨rfl, hc⟩
  rintro f u v hrun ⟨hcal, hvalid⟩
  obtain ⟨hcal', hvalid'⟩ := runFrame_keeps_cal hvalid hrun
  exact ⟨hcal'.trans hcal, hvalid'.trans hvalid⟩

end Sys2Proof.Machine

namespace Sys2Proof.Proofs

open Machine

/-- Settles O17: every frame keeps `CAL` and CAL_VALID in a calibrated block, so every run does; and there ID_OK is 1, by the
invariant, so that LDCAL passes its identity check and meets the lock. -/
theorem calibrationIsImmutableInASession : Obligations.CalibrationIsImmutableInASession := by
  intro s hinv hc
  refine ⟨fun fs t hrun => runFrames_keeps_cal hc hrun, fun a b ha hb hh => ?_⟩
  rw [exec_ldcal_of_calibrated ha hb hh (hinv.calNeedsId hc) hc, respond_eq]

/-- Settles O1: the fields are those `State.reset` writes, and RDCAL finds CAL_VALID = 0. -/
theorem resetStateOfTheBlock : Obligations.ResetStateOfTheBlock := by
  refine ⟨rfl, rfl, rfl, rfl, rfl, rfl, fun k hk => ?_⟩
  rw [exec_rdcal_of_uncalibrated hk rfl rfl, respond_eq, reset_outbox, List.nil_append]

end Sys2Proof.Proofs
end

section
/-! PROOF. The encoding family: which frames decode rejects, and by which of the checks of R98. -/

namespace Sys2Proof

open Machine

/-! ## The opcode byte and the length -/

/-- The opcode bytes are 0x01 to 0x07 (R80). -/
theorem code_toNat_bounds (o : Opcode) : 1 ≤ o.code.toNat ∧ o.code.toNat ≤ 7 := by
  cases o <;> decide

/-- 0x00 and 0x08 to 0xFF select no opcode (R95). -/
theorem ofByte?_eq_none {b : Byte} (h : b.toNat = 0 ∨ 8 ≤ b.toNat) : Opcode.ofByte? b = none := by
  rw [Option.eq_none_iff_forall_ne_some]
  intro o ho
  obtain ⟨hlow, hhigh⟩ := code_toNat_bounds o
  rw [code_of_ofByte? ho] at hlow hhigh
  omega

theorem decode_of_unknownOpcode {f0 : Byte} (p : List Byte) (h : f0.toNat = 0 ∨ 8 ≤ f0.toNat) :
    decode (f0 :: p) = .error .unknownOpcode := by
  simp only [decode, ofByte?_eq_none h]

theorem decode_of_wrongLength {o : Opcode} {p : List Byte} (h : p.length + 1 ≠ o.length) :
    decode (o.code :: p) = .error .wrongLength := by
  simp only [decode, ofByte?_code, List.length_cons, if_neg h]

/-- A frame of its opcode's length is judged by its operands alone. -/
theorem decode_of_length {o : Opcode} {p : List Byte} (h : p.length + 1 = o.length) :
    decode (o.code :: p) = decodeOperands o p := by
  simp only [decode, ofByte?_code, List.length_cons, if_pos h]

/-! ## The operands -/

theorem operand20_of_reserved {f1 f2 f3 : Byte} (h : 16 ≤ f3.toNat) : operand20 f1 f2 f3 = none := by
  rw [Option.eq_none_iff_forall_ne_some]
  intro adc hadc
  obtain ⟨hlt, -⟩ := operand20_eq_some.1 hadc
  omega

theorem operand20_of_legal (f1 f2 : Byte) {f3 : Byte} (h : f3.toNat < 16) : ∃ adc, operand20 f1 f2 f3 = some adc := by
  have h1 := f1.isLt
  have h2 := f2.isLt
  refine ⟨BitVec.ofNat 20 ((f3.toNat * 256 + f2.toNat) * 256 + f1.toNat), operand20_eq_some.2 ⟨h, ?_⟩⟩
  rw [BitVec.toNat_ofNat, Nat.mod_eq_of_lt (by omega)]

/-- The reserved operand values of R96, read off the payload F[1..]: an RDCAL index above 17, and a top byte of a
20-bit operand whose high nibble is not 0. -/
def HasReservedOperand (o : Opcode) (p : List Byte) : Prop :=
  o = .rdcal ∧ 17 < byteNat p 0 ∨ (o = .cmpt ∨ o = .cmpp) ∧ 16 ≤ byteNat p 2

/-- A reserved operand in a payload of the right length is what `decodeOperands` rejects. -/
theorem decodeOperands_of_reserved {o : Opcode} {p : List Byte} (hlen : p.length + 1 = o.length)
    (h : HasReservedOperand o p) : decodeOperands o p = .error .reservedOperand := by
  obtain ⟨rfl, hk⟩ | ⟨ho, hn⟩ := h
  · obtain ⟨k, rfl⟩ := List.length_eq_one_iff.1 (Nat.succ.inj hlen)
    exact if_neg (Nat.not_le.2 hk)
  · have hthree : p.length = 3 := by obtain rfl | rfl := ho <;> exact Nat.succ.inj hlen
    obtain ⟨f1, f2, f3, rfl⟩ := List.length_eq_three.1 hthree
    have hnone : operand20 f1 f2 f3 = none := operand20_of_reserved hn
    obtain rfl | rfl := ho <;> simp only [decodeOperands, hnone, Option.elim_none]

/-- CMPT and CMPP with the reserved nibble at 0 (R87, R88). -/
theorem decodeOperands_of_legal20 {o : Opcode} {f1 f2 f3 : Byte} (ho : o = .cmpt ∨ o = .cmpp) (hn : f3.toNat < 16) :
    ∃ i, decodeOperands o [f1, f2, f3] = .ok i ∧ i.opcode = o := by
  obtain ⟨adc, hadc⟩ := operand20_of_legal f1 f2 hn
  obtain rfl | rfl := ho
  · exact ⟨.cmpt adc, by simp only [decodeOperands, hadc, Option.elim_some], rfl⟩
  · exact ⟨.cmpp adc, by simp only [decodeOperands, hadc, Option.elim_some], rfl⟩

/-- Every other payload of the right length makes a command of the opcode. -/
theorem decodeOperands_of_legal {o : Opcode} {p : List Byte} (hlen : p.length + 1 = o.length)
    (h : ¬ HasReservedOperand o p) : ∃ i, decodeOperands o p = .ok i ∧ i.opcode = o := by
  cases o with
  | chkid =>
    obtain ⟨id, rfl⟩ := List.length_eq_one_iff.1 (Nat.succ.inj hlen)
    exact ⟨.chkid id, rfl, rfl⟩
  | ldcal => exact ⟨.ldcal (p.take 26) (p.drop 26), rfl, rfl⟩
  | rdcal =>
    obtain ⟨k, rfl⟩ := List.length_eq_one_iff.1 (Nat.succ.inj hlen)
    have hk : k.toNat ≤ 17 := Nat.not_lt.1 fun hk => h (.inl ⟨rfl, hk⟩)
    exact ⟨.rdcal k, if_pos hk, rfl⟩
  | unpk => exact ⟨.unpk p, rfl, rfl⟩
  | cmpt =>
    obtain ⟨f1, f2, f3, rfl⟩ := List.length_eq_three.1 (Nat.succ.inj hlen)
    exact decodeOperands_of_legal20 (.inl rfl) (Nat.not_le.1 fun hn => h (.inr ⟨.inl rfl, hn⟩))
  | cmpp =>
    obtain ⟨f1, f2, f3, rfl⟩ := List.length_eq_three.1 (Nat.succ.inj hlen)
    exact decodeOperands_of_legal20 (.inr rfl) (Nat.not_le.1 fun hn => h (.inr ⟨.inr rfl, hn⟩))
  | cmph =>
    obtain ⟨f1, f2, rfl⟩ := List.length_eq_two.1 (Nat.succ.inj hlen)
    exact ⟨.cmph (operand16 f1 f2), rfl, rfl⟩

end Sys2Proof

namespace Sys2Proof.Proofs

/-- Settles O43: one lemma per check of R98, in the rule's order; a frame that passes the first three is judged by its
operands alone. -/
theorem decodeRejectsByTheFirstFailingCheck : Obligations.DecodeRejectsByTheFirstFailingCheck := by
  refine ⟨rfl, fun f0 p => ⟨decode_of_unknownOpcode p, ?_⟩⟩
  rintro o rfl
  refine ⟨decode_of_wrongLength, fun hlen => ?_⟩
  rw [decode_of_length hlen]
  exact ⟨decodeOperands_of_reserved hlen, decodeOperands_of_legal hlen⟩

end Sys2Proof.Proofs
end

section
/-! PROOF. The field extraction family: two's complement as the conditional subtraction (R10, R120), and the sign of a packed
pattern (R122). -/

namespace Sys2Proof.Machine

/-! ## The conditional subtraction -/

/-- R120: two's complement is the conditional subtraction, at every width. -/
theorem toInt_eq_foldSigned {n : Nat} (v : BitVec n) (hn : 0 < n) : v.toInt = foldSigned n v.toNat := by
  obtain ⟨n, rfl⟩ := Nat.exists_eq_add_one.2 hn
  rw [BitVec.toInt_eq_msb_cond, BitVec.msb_eq_decide]
  simp [foldSigned]

theorem foldSigned_eight (v : Nat) : foldSigned 8 v = if 128 ≤ v then (v : Int) - 256 else v := (rfl)

theorem foldSigned_twelve (v : Nat) : foldSigned 12 v = if 2048 ≤ v then (v : Int) - 4096 else v := (rfl)

theorem foldSigned_sixteen (v : Nat) : foldSigned 16 v = if 32768 ≤ v then (v : Int) - 65536 else v := (rfl)

/-! ## The signed reading of each extraction -/

theorem extS8_toInt (b : Byte) : (extS8 b).toInt = foldSigned 8 b.toNat := toInt_eq_foldSigned b (by decide)

theorem extS16LE_toInt (lo hi : Byte) : (extS16LE lo hi).toInt = foldSigned 16 (lo.toNat + 256 * hi.toNat) := by
  rw [toInt_eq_foldSigned _ (by decide), extS16LE_toNat, Nat.mul_comm, Nat.add_comm]

theorem extS12A_toInt (hb nb : Byte) : (extS12A hb nb).toInt = foldSigned 12 (16 * hb.toNat + nb.toNat % 16) := by
  rw [toInt_eq_foldSigned _ (by decide), extS12A_toNat, Nat.mul_comm]

theorem extS12B_toInt (nb hb : Byte) : (extS12B nb hb).toInt = foldSigned 12 (16 * hb.toNat + nb.toNat / 16) := by
  rw [toInt_eq_foldSigned _ (by decide), extS12B_toNat, Nat.mul_comm]

/-! ## The 32-bit words -/

/-- The word of a signed kind is a sign extension, so it keeps the integer (R91). -/
theorem extend32_toInt {k : Kind} (hk : k = .s8 ∨ k = .s16le ∨ k = .s12a ∨ k = .s12b) {n : Nat} (hn : n ≤ 32)
    (v : BitVec n) : (extend32 k v).toInt = v.toInt := by
  obtain rfl | rfl | rfl | rfl := hk <;> exact BitVec.toInt_signExtend_of_le hn

/-- The word of a signed kind folds the pattern it extends (R120). -/
theorem extend32_toInt_eq_foldSigned {k : Kind} (hk : k = .s8 ∨ k = .s16le ∨ k = .s12a ∨ k = .s12b) {n : Nat}
    (hpos : 0 < n) (hn : n ≤ 32) (v : BitVec n) : (extend32 k v).toInt = foldSigned n v.toNat :=
  (extend32_toInt hk hn v).trans (toInt_eq_foldSigned v hpos)

/-! ## The sign of a packed pattern -/

/-- The sign of a concatenation is that of its high part, whatever the low part is (R122). -/
theorem concat_toInt_neg_iff {n m : Nat} (a : BitVec n) (b : BitVec m) (hn : 0 < n) :
    (a ++ b).toInt < 0 ↔ a.toInt < 0 := by
  have hmsb : (a ++ b).msb = a.msb := by rw [BitVec.msb_append, if_neg (by simpa using hn.ne')]
  rwa [BitVec.msb_eq_toInt, BitVec.msb_eq_toInt, decide_eq_decide] at hmsb

theorem byte_toInt_neg_iff (b : Byte) : b.toInt < 0 ↔ 128 ≤ b.toNat := by
  rw [BitVec.toInt_neg_iff]
  omega

end Sys2Proof.Machine

namespace Sys2Proof.Proofs

open Machine

/-- Settles O46: each extraction has its folded reading, and a sign extension keeps it; every signed coefficient's word is
the extension of its kind. -/
theorem foldIsTwosComplement : Obligations.FoldIsTwosComplement := by
  refine ⟨fun b0 b1 m => ⟨extS8_toInt b0, fun hm => ?_, extS16LE_toInt b0 b1, fun hm => ?_, extS12A_toInt b0 b1,
    fun hm => ?_, extS12B_toInt b0 b1, fun hm => ?_, ?_, ?_, ?_, ?_⟩, fun c => ?_⟩
  · rw [BitVec.toInt_signExtend_of_le hm, extS8_toInt]
  · rw [BitVec.toInt_signExtend_of_le hm, extS16LE_toInt]
  · rw [BitVec.toInt_signExtend_of_le hm, extS12A_toInt]
  · rw [BitVec.toInt_signExtend_of_le hm, extS12B_toInt]
  · rw [extend32_toInt (by decide) (by decide), extS8_toInt]
  · rw [extend32_toInt (by decide) (by decide), extS16LE_toInt]
  · rw [extend32_toInt (by decide) (by decide), extS12A_toInt]
  · rw [extend32_toInt (by decide) (by decide), extS12B_toInt]
  · and_intros <;> exact extend32_toInt_eq_foldSigned (by decide) (by decide) (by decide) _

/-- Settles O45: the unsigned extractions by the value of their concatenation, the signed ones by the fold of it. -/
theorem extractionValues : Obligations.ExtractionValues := by
  intro b0 b1 b2
  refine ⟨rfl, ?_, ?_, ?_, ?_, ?_, ?_, extU16BE_toNat b0 b1⟩
  · rw [extS8_toInt, foldSigned_eight]
  · rw [extU16LE_toNat, Nat.mul_comm, Nat.add_comm]
  · rw [extS16LE_toInt, foldSigned_sixteen]
  · rw [extS12A_toInt, foldSigned_twelve]
  · rw [extS12B_toInt, foldSigned_twelve]
  · rw [extU20BE_toNat]
    omega

/-- Settles O47: H4 and H5 are each a concatenation with their own high byte on the left. -/
theorem packedSignsAreIndependent : Obligations.PackedSignsAreIndependent := fun hb _ hb' =>
  ⟨(concat_toInt_neg_iff hb _ (by decide)).trans (byte_toInt_neg_iff hb),
    (concat_toInt_neg_iff hb' _ (by decide)).trans (byte_toInt_neg_iff hb')⟩

end Sys2Proof.Proofs
end

section
/-! PROOF. The calibration decoder family: what CHKID, LDCAL and RDCAL write and answer (R130, R131, R152), and the integers of
the coefficients (R132 to R150). -/

namespace Sys2Proof.Machine

variable {s : State}

/-! ## The answers of CHKID and LDCAL -/

/-- CHKID of the expected byte in a block that is not halted (R130). -/
theorem exec_chkid_of_match (hh : s.flags.halt = false) :
    exec (.chkid Config.expectedId) s = .next (s.setIdOk.respond [0x00#8]) := by
  rw [exec, execChkid, checkIdentity, unlessHalted_of_running hh, if_pos rfl, ok_eq]

/-- CHKID of any other byte in a block that is not halted (R130, R241). -/
theorem exec_chkid_of_mismatch {id : Byte} (hh : s.flags.halt = false) (hid : id ≠ Config.expectedId) :
    exec (.chkid id) s = .next (s.setHalt.respond [0x01#8]) := by
  rw [exec, execChkid, checkIdentity, unlessHalted_of_running hh, if_neg hid]
  exact raise_eq .identityMismatch s

/-- LDCAL before a matching CHKID is a SequenceError (R131, R242). -/
theorem exec_ldcal_of_unchecked {a b : List Byte} (ha : a.length = 26) (hb : b.length = 7)
    (hh : s.flags.halt = false) (hi : s.flags.idOk = false) :
    exec (.ldcal a b) s = .next (s.respond [0x02#8]) := by
  rw [exec, execLdcal, unlessHalted_of_running hh, whenWellFormed_of_wf (by simp [Instr.wellFormed, ha, hb]), if_pos hi]
  exact raise_eq .sequenceError s

/-! ## The integers of the decoded coefficients -/

theorem extU16LE_byteAt_toNat (block : List Byte) (i : Nat) :
    (extU16LE (byteAt block i) (byteAt block (i + 1))).toNat = le16At block i := by
  rw [extU16LE_toNat, Nat.mul_comm, Nat.add_comm]
  rfl

theorem extS16LE_byteAt_toInt (block : List Byte) (i : Nat) :
    (extS16LE (byteAt block i) (byteAt block (i + 1))).toInt = foldSigned 16 (le16At block i) :=
  extS16LE_toInt (byteAt block i) (byteAt block (i + 1))

/-! ## The byte no rule reads -/

theorem byteAt_set_ne (block : List Byte) (v : Byte) {i j : Nat} (h : i ≠ j) :
    byteAt (block.set i v) j = byteAt block j := by
  simp only [byteAt, List.getD_eq_getElem?_getD, List.getElem?_set_ne h]

/-- No coefficient is read from A[24] (R150). -/
theorem decodeBlocks_set_24 (a b : List Byte) (v : Byte) : decodeBlocks (a.set 24 v) b = decodeBlocks a b := by
  simp [decodeBlocks, decodeTemp, decodePress, decodeHum, byteAt_set_ne]

/-- The check of a command's operands asks only whether they are well-formed (R248 step 2). -/
theorem whenWellFormed_congr {i j : Instr} (h : i.wellFormed = j.wellFormed) (s : State) (k : State → Result) :
    whenWellFormed i s k = whenWellFormed j s k := by
  rw [whenWellFormed, h, ← whenWellFormed]

/-- LDCAL takes from block A its length and the coefficients alone, so A[24] has no effect in any state (R150). -/
theorem exec_ldcal_set_24 (a b : List Byte) (v : Byte) (s : State) :
    exec (.ldcal (a.set 24 v) b) s = exec (.ldcal a b) s := by
  have hwf : (Instr.ldcal (a.set 24 v) b).wellFormed = (Instr.ldcal a b).wellFormed := by
    simp only [Instr.wellFormed, List.length_set]
  simp only [exec, execLdcal, whenWellFormed_congr hwf, decodeBlocks_set_24]

/-! ## The answers of RDCAL -/

/-- RDCAL of a reserved index in a block that is not halted (R152, R244). -/
theorem exec_rdcal_of_reserved {k : Byte} (hk : 17 < k.toNat) (hh : s.flags.halt = false) :
    exec (.rdcal k) s = .next (s.respond [0x04#8]) := by
  simp only [exec, execRdcal, unlessHalted_of_running hh, coeffAt_none hk]
  exact raise_eq .illegalCommand s

/-- RDCAL of an index that names a coefficient, in a block that is ready (R152). -/
theorem exec_rdcal_of_ready {k : Byte} {x : Coeff} (hx : coeffAt k = some x) (hh : s.flags.halt = false)
    (hc : s.flags.calValid = true) :
    exec (.rdcal k) s = .next (s.respond (0x00#8 :: word32Bytes (coeffWord s.calRegs x))) := by
  simp only [exec, execRdcal, unlessHalted_of_running hh, hx, whenCalibrated_of_valid hc, ok_eq]

/-- The statement's table of words is the model's `coeffWord` along the order of the index (R21, R91). -/
theorem coeffWords_eq_map (c : CalibrationSet) : coeffWords c = coeffOrder.map (coeffWord c) := rfl

theorem coeffWords_getElem?_eq_some {c : CalibrationSet} {k : Byte} {w : BitVec 32} :
    (coeffWords c)[k.toNat]? = some w ↔ ∃ x, coeffAt k = some x ∧ coeffWord c x = w := by
  rw [coeffWords_eq_map, List.getElem?_map, Option.map_eq_some_iff, coeffAt]

/-- The four bytes of a word, least significant first (R64). -/
theorem word32Bytes_eq (w : BitVec 32) : word32Bytes w =
    [w.extractLsb' 0 8, w.extractLsb' 8 8, w.extractLsb' 16 8, w.extractLsb' 24 8] := by
  simp only [word32Bytes, leBytes, Nat.div_div_eq_div_mul, BitVec.extractLsb', Nat.shiftRight_eq_div_pow]
  simp

end Sys2Proof.Machine

namespace Sys2Proof.Proofs

open Machine

/-- Settles O13: CHKID's three outcomes, each with its state written out. -/
theorem chkidSetsIdOkOrHalts : Obligations.ChkidSetsIdOkOrHalts := by
  refine fun id s => ⟨fun hh => exec_of_halted _ hh, ?_, fun hh hid => exec_chkid_of_mismatch hh hid⟩
  rintro hh rfl
  exact exec_chkid_of_match hh

/-- Settles O14: LDCAL's four outcomes; the set it writes is `decodeBlocks`, whose positions are those of the statement. -/
theorem ldcalWritesTheDecodedSet : Obligations.LdcalWritesTheDecodedSet := fun _ _ _ ha hb =>
  ⟨fun hh => exec_of_halted _ hh,
    fun hh hi => exec_ldcal_of_unchecked ha hb hh hi,
    fun hh hi hc => exec_ldcal_of_calibrated ha hb hh hi hc,
    fun hh hi hc => exec_ldcal_of_checked ha hb hh hi hc⟩

/-- Settles O15: T1 and P1 are unsigned pairs of bytes of block A, the others signed pairs. -/
theorem ldcalTemperatureAndPressureValues : Obligations.LdcalTemperatureAndPressureValues := by
  intro a b s ha hb hh hi hc
  refine ⟨_, decodeBlocks a b, exec_ldcal_of_checked ha hb hh hi hc, rfl, ?_⟩
  have hunsigned := extU16LE_byteAt_toNat a
  have hsigned := extS16LE_byteAt_toInt a
  exact ⟨hunsigned 0, hsigned 2, hsigned 4, hunsigned 6, hsigned 8, hsigned 10, hsigned 12, hsigned 14, hsigned 16,
    hsigned 18, hsigned 20, hsigned 22⟩

/-- Settles O16: each humidity coefficient by the reading of its extraction; no register is decoded from A[24]. -/
theorem ldcalHumidityValues : Obligations.LdcalHumidityValues := by
  intro a b s ha hb hh hi hc
  refine ⟨_, decodeBlocks a b, exec_ldcal_of_checked ha hb hh hi hc, rfl, ?_⟩
  exact ⟨rfl, extS16LE_byteAt_toInt b 0, rfl, extS12A_toInt (byteAt b 3) (byteAt b 4),
    extS12B_toInt (byteAt b 4) (byteAt b 5), extS8_toInt (byteAt b 6), fun v => exec_ldcal_set_24 a b v s⟩

/-- Settles O18: RDCAL's four outcomes; an index with a word in the table names the coefficient whose word RDCAL answers. -/
theorem rdcalAnswersTheCoefficient : Obligations.RdcalAnswersTheCoefficient := by
  refine fun k s => ⟨fun hh => exec_of_halted _ hh, fun hh hk => exec_rdcal_of_reserved hk hh,
    fun hh hk hc => exec_rdcal_of_uncalibrated hk hh hc, fun c w hh hc hcal hw => ?_⟩
  obtain ⟨x, hx, rfl⟩ := coeffWords_getElem?_eq_some.1 hw
  rw [exec_rdcal_of_ready hx hh hc, calRegs_of_some hcal, word32Bytes_eq, respond_eq]

end Sys2Proof.Proofs
end

section
/-! PROOF. The raw sample family: the counts of a burst as numbers of its bytes (R171 to R173), and the bytes UNPK answers
(R170). -/

namespace Sys2Proof.Machine

/-- A 20-bit big-endian count (R117): the low byte gives its upper nibble alone. -/
theorem extU20BE_byteAt_toNat (raw : List Byte) (i : Nat) :
    (extU20BE (byteAt raw i) (byteAt raw (i + 1)) (byteAt raw (i + 2))).toNat =
      byteNat raw i * 4096 + byteNat raw (i + 1) * 16 + byteNat raw (i + 2) / 16 := by
  rw [extU20BE_toNat, Nat.add_mul, Nat.mul_assoc]
  rfl

theorem unpackP_toNat (raw : List Byte) :
    (unpackP raw).toNat = byteNat raw 0 * 4096 + byteNat raw 1 * 16 + byteNat raw 2 / 16 :=
  extU20BE_byteAt_toNat raw 0

theorem unpackT_toNat (raw : List Byte) :
    (unpackT raw).toNat = byteNat raw 3 * 4096 + byteNat raw 4 * 16 + byteNat raw 5 / 16 :=
  extU20BE_byteAt_toNat raw 3

theorem unpackH_toNat (raw : List Byte) : (unpackH raw).toNat = byteNat raw 6 * 256 + byteNat raw 7 :=
  extU16BE_toNat (byteAt raw 6) (byteAt raw 7)

end Sys2Proof.Machine

namespace Sys2Proof.Proofs

open Machine

/-- Settles O20: a block that is not halted answers the counts' bytes, and each count is the number of its burst bytes. -/
theorem unpkAnswersTheCounts : Obligations.UnpkAnswersTheCounts := by
  refine fun raw s hl => ⟨fun hh => exec_of_halted _ hh, fun hh => ?_⟩
  rw [exec_unpk_of_running hl hh, respond_eq, rawSampleBytes, unpackP_toNat, unpackT_toNat, unpackH_toNat]
  simp only [leBytes_three, leBytes_two, Nat.div_div_eq_div_mul, List.cons_append, List.nil_append]

end Sys2Proof.Proofs
end

section
/-! PROOF. The float numerics family: `trunc` discards the fraction, toward zero (R187). -/

namespace Sys2Proof.F64

variable {x : F64}

/-- A bound of the value as a bound in units: the domain of R187 as `trunc` tests it. -/
theorem magnitude_lt_of_abs_value_lt {b : Nat} (h : |x.value| < b) : x.magnitude < b * unitsPerOne := by
  rw [abs_value, div_lt_iff₀ unitsPerOne_pos'] at h
  exact_mod_cast h

/-- Inside the domain of R187 no wrap-around occurs: the register's integer is the quotient of the units. -/
theorem trunc_toInt (hx : x.isFinite = true) (h : |x.value| < 2 ^ 31) :
    x.trunc.toInt = x.units.tdiv unitsPerOne := by
  have hm : x.magnitude < 2 ^ 31 * unitsPerOne := magnitude_lt_of_abs_value_lt (by exact_mod_cast h)
  have hq : (x.units.tdiv unitsPerOne).natAbs < 2 ^ 31 := by
    rw [Int.natAbs_tdiv, natAbs_units, Int.natAbs_natCast]
    exact Nat.div_lt_of_lt_mul (by rwa [Nat.mul_comm])
  rw [trunc, if_pos ⟨hx, hm⟩]
  exact BitVec.toInt_ofInt_eq_self (by decide) (by omega) (by omega)

/-- Integer division toward zero is the floor of a quotient that is not negative and the ceiling of a negative one. -/
theorem tdiv_eq_floor_or_ceil (n : ℤ) {d : ℕ} (hd : 0 < d) :
    n.tdiv d = if 0 ≤ (n / d : ℚ) then ⌊(n / d : ℚ)⌋ else ⌈(n / d : ℚ)⌉ := by
  have hsign : 0 ≤ (n / d : ℚ) ↔ 0 ≤ n := by
    rw [le_div_iff₀ (Nat.cast_pos.2 hd), zero_mul, Int.cast_nonneg_iff]
  rw [Rat.floor_intCast_div_natCast, Rat.ceil_intCast_div_natCast, if_congr hsign rfl rfl]
  split
  case isTrue hn => exact Int.tdiv_eq_ediv_of_nonneg hn
  case isFalse hn => rw [← Int.tdiv_eq_ediv_of_nonneg (by omega), Int.neg_tdiv, neg_neg]

end Sys2Proof.F64

namespace Sys2Proof.Proofs

/-- Settles O54: the truncated quotient of the units fits the register, and it is the floor or the ceiling of the value. -/
theorem truncationIsTowardZero : Obligations.TruncationIsTowardZero := fun x hx h =>
  (F64.trunc_toInt hx h).trans (F64.tdiv_eq_floor_or_ceil x.units F64.unitsPerOne_pos)

end Sys2Proof.Proofs
end

section
/-! PROOF. The compensation family: CMPT, CMPP and CMPH evaluate the formulas in the rules' order (R202, R214, R222), behind
the same checks, and read nothing but their own coefficients and `T_FINE` (R231). -/

namespace Sys2Proof.Machine

variable {s : State}

/-! ## Refused without a CalibrationSet -/

/-- The checks CMPT, CMPP and CMPH share, in a block that is not halted and has no CalibrationSet (R242, R248). -/
theorem checks_of_uncalibrated (hh : s.flags.halt = false) (hc : s.flags.calValid = false) (k : State → Result) :
    unlessHalted s (fun s => whenCalibrated s k) = .next (s.respond [0x02#8]) := by
  rw [unlessHalted_of_running hh, whenCalibrated_of_absent hc]
  exact raise_eq .sequenceError s

theorem exec_cmpt_of_uncalibrated (adcT : BitVec 20) (hh : s.flags.halt = false) (hc : s.flags.calValid = false) :
    exec (.cmpt adcT) s = .next (s.respond [0x02#8]) := checks_of_uncalibrated hh hc _

theorem exec_cmpp_of_uncalibrated (adcP : BitVec 20) (hh : s.flags.halt = false) (hc : s.flags.calValid = false) :
    exec (.cmpp adcP) s = .next (s.respond [0x02#8]) := checks_of_uncalibrated hh hc _

theorem exec_cmph_of_uncalibrated (adcH : BitVec 16) (hh : s.flags.halt = false) (hc : s.flags.calValid = false) :
    exec (.cmph adcH) s = .next (s.respond [0x02#8]) := checks_of_uncalibrated hh hc _

/-! ## The formulas at the machine's arithmetic are those of the rules -/

theorem f64Bytes_eq (x : F64) : f64Bytes x = leBytes 8 x.bits.toNat := (rfl)
theorem word32Bytes_eq_leBytes (w : BitVec 32) : word32Bytes w = leBytes 4 w.toNat := (rfl)

theorem lit_ieee (n : Nat) : lit .ieee n = F64.ofInt n := lit_eq_ofInt .ieee n
theorem fu_ieee {n : Nat} (v : BitVec n) : fu .ieee v = F64.ofInt v.toNat := (rfl)
theorem fs_ieee {n : Nat} (v : BitVec n) : fs .ieee v = F64.ofInt v.toInt := (rfl)

/-- The sum of TFormula (R202). -/
theorem tSum_ieee (adcT : BitVec 20) (c : TempCoeffs) :
    tSum .ieee adcT c = specSum adcT.toNat c.t1.toNat c.t2.toInt c.t3.toInt := by
  simp only [tSum, specSum, lit_ieee, fu_ieee, fs_ieee, F64.ieee_add, F64.ieee_sub, F64.ieee_mul, F64.ieee_div,
    Nat.cast_ofNat]

/-- The denominator of the default PFormula (R214). -/
theorem pDenominator_ieee (c : PressCoeffs) (tf : BitVec 32) :
    pDenominator .ieee c tf = specDenominator c.p1.toNat c.p2.toInt c.p3.toInt tf.toInt := by
  simp only [pDenominator, pBracket, pX1, specDenominator, lit_ieee, fu_ieee, fs_ieee, F64.ieee_add, F64.ieee_sub,
    F64.ieee_mul, F64.ieee_div, Nat.cast_ofNat, Nat.cast_one]

/-- The quotient of the default PFormula by a denominator that is not zero (R214). -/
theorem pPascal_ieee (adcP : BitVec 20) (c : PressCoeffs) (tf : BitVec 32) (den : F64) :
    (pPascal .ieee adcP c tf den).div (F64.ofInt 100) =
      specPressure adcP.toNat den c.p4.toInt c.p5.toInt c.p6.toInt c.p7.toInt c.p8.toInt c.p9.toInt tf.toInt := by
  simp only [pPascal, pY3, pX1, specPressure, lit_ieee, fu_ieee, fs_ieee, F64.ieee_add, F64.ieee_sub, F64.ieee_mul,
    F64.ieee_div, Nat.cast_ofNat]

/-- The default PFormula with its guard (R211, R214). -/
theorem defaultPFormula_ieee (nan : F64) (adcP : BitVec 20) (c : PressCoeffs) (tf : BitVec 32) :
    defaultPFormula .ieee nan adcP c tf =
      if (specDenominator c.p1.toNat c.p2.toInt c.p3.toInt tf.toInt).eq (F64.ofInt 0) then nan
      else specPressure adcP.toNat (specDenominator c.p1.toNat c.p2.toInt c.p3.toInt tf.toInt) c.p4.toInt c.p5.toInt
        c.p6.toInt c.p7.toInt c.p8.toInt c.p9.toInt tf.toInt := by
  simp only [defaultPFormula, pDenominator_ieee, lit_zero, lit_hundred, F64.ieee_eq, F64.ieee_div, F64.ieee_ofInt,
    pPascal_ieee]

/-- The default HFormula, unclamped (R222). -/
theorem defaultHFormula_ieee (adcH : BitVec 16) (c : HumCoeffs) (tf : BitVec 32) :
    defaultHFormula .ieee adcH c tf = specHumidity adcH.toNat c.h1.toNat c.h2.toInt c.h3.toNat c.h4.toInt c.h5.toInt
      c.h6.toInt tf.toInt := by
  simp only [defaultHFormula, specHumidity, lit_ieee, fu_ieee, fs_ieee, F64.ieee_add, F64.ieee_sub, F64.ieee_mul,
    F64.ieee_div, Nat.cast_ofNat, Nat.cast_one]

/-- The clamp (R221). -/
theorem clampHumidity_ieee (h : F64) : clampHumidity .ieee h =
    if h.gt (F64.ofInt 100) then F64.ofInt 100 else if h.lt (F64.ofInt 0) then F64.ofInt 0 else h := by
  simp only [clampHumidity, lit_zero, lit_hundred, F64.ieee_gt, F64.ieee_lt, F64.ieee_ofInt]

/-! ## CMPT does not depend on the `T_FINE` it finds -/

/-- Two ready blocks with the same temperature coefficients answer CMPT alike and are left the same `T_FINE` (R231). -/
theorem compensateTemperature_congr {s1 s2 : State} (h1 : s1.ready) (h2 : s2.ready) (ar : Binary64) (adcT : BitVec 20)
    (htemp : s1.calRegs.temp = s2.calRegs.temp) : ∃ p t1 t2, compensateTemperature ar adcT s1 = .next t1 ∧
      compensateTemperature ar adcT s2 = .next t2 ∧ t1.tFine = t2.tFine ∧ t1.outbox = s1.outbox ++ [p] ∧
        t2.outbox = s2.outbox ++ [p] := by
  obtain ⟨hh1, hc1⟩ := h1
  obtain ⟨hh2, hc2⟩ := h2
  rw [compensateTemperature_of_ready ar adcT hh1 hc1, compensateTemperature_of_ready ar adcT hh2 hc2, htemp]
  refine ⟨_, _, _, rfl, rfl, ?_, respond_outbox _ _, respond_outbox _ _⟩
  simp only [respond_tFine, setTfValid_tFine, writeTFine_tFine]

end Sys2Proof.Machine

namespace Sys2Proof.Proofs

open Machine

/-- Settles O31: a ready block answers CMPP and CMPH with the formula's value at its own coefficients and `T_FINE`, and CMPT
with TFormula's at its coefficients alone; the machine's own CMPT is the instance at its arithmetic. -/
theorem compensationDependsOnlyOnItsInputs : Obligations.CompensationDependsOnlyOnItsInputs := by
  intro s1 s2 h1 h2
  obtain ⟨hh1, hc1⟩ := h1
  obtain ⟨hh2, hc2⟩ := h2
  refine ⟨fun pf adcP hpress htf => ⟨_, compensatePressure_of_ready pf adcP hh1 hc1, ?_⟩,
    fun ar hf adcH hhum htf => ⟨_, compensateHumidity_of_ready ar hf adcH hh1 hc1, ?_⟩,
    compensateTemperature_congr ⟨hh1, hc1⟩ ⟨hh2, hc2⟩, compensateTemperature_congr ⟨hh1, hc1⟩ ⟨hh2, hc2⟩ .ieee⟩
  · rw [compensatePressure_of_ready pf adcP hh2 hc2, hpress, htf, respond_eq]
  · rw [compensateHumidity_of_ready ar hf adcH hh2 hc2, hhum, htf, respond_eq]

/-- Settles O22: CMPT's three outcomes; the sum is that of R202 at the machine's arithmetic. -/
theorem cmptWritesTemperatureFine : Obligations.CmptWritesTemperatureFine := by
  refine fun adcT s => ⟨fun hh => exec_of_halted _ hh, fun hh hc => exec_cmpt_of_uncalibrated adcT hh hc,
    fun hh hc => ?_⟩
  rw [exec_cmpt_of_ready adcT hh hc, carry_eq, tSum_ieee, f64Bytes_eq, word32Bytes_eq_leBytes, lit_ieee, Nat.cast_ofNat]

/-- Settles O25: CMPP's three outcomes; the value is that of R214 with its guard. -/
theorem cmppAnswersThePressure : Obligations.CmppAnswersThePressure := by
  refine fun adcP s => ⟨fun hh => exec_of_halted _ hh, fun hh hc => exec_cmpp_of_uncalibrated adcP hh hc,
    fun hh hc => ?_⟩
  rw [exec_cmpp_of_ready adcP hh hc, respond_eq, f64Bytes_eq, defaultPFormula_ieee]

/-- Settles O28: CMPH's three outcomes; the value is that of R222, clamped as R221 says. -/
theorem cmphAnswersTheHumidity : Obligations.CmphAnswersTheHumidity := by
  refine fun adcH s => ⟨fun hh => exec_of_halted _ hh, fun hh hc => exec_cmph_of_uncalibrated adcH hh hc,
    fun hh hc => ?_⟩
  rw [exec_cmph_of_ready adcH hh hc, respond_eq, f64Bytes_eq, clampHumidity_ieee, defaultHFormula_ieee]

/-- Settles O30: before any CMPT the invariant holds `T_FINE` at 0 (R37 (c)), and that is the carry the formulas read. -/
theorem zeroCarryBeforeAnyCmpt : Obligations.ZeroCarryBeforeAnyCmpt := by
  rintro s hinv ⟨hh, hc⟩ htf
  have hzero : s.tFine = 0#32 := hinv.tfZero htf
  refine ⟨fun adcP => ?_, fun adcH => ?_⟩
  · rw [exec_cmpp_of_ready adcP hh hc, respond_eq, f64Bytes_eq, hzero]
  · rw [exec_cmph_of_ready adcH hh hc, respond_eq, f64Bytes_eq, hzero]

end Sys2Proof.Proofs
end

section
/-! PROOF. The exceptions family: the one response of a frame, its status by the priority of R248 and what a fault writes (R249);
the refusals of a halted block (R246); SequenceError (R242). -/

namespace Sys2Proof

/-! ## What decodes is well-formed -/

/-- A payload of its opcode's length gives blocks and bursts of the right length, and its index has passed the check of R96. -/
theorem wellFormed_of_decodeOperands {o : Opcode} {p : List Byte} {i : Instr} (hlen : p.length + 1 = o.length)
    (h : decodeOperands o p = .ok i) : i.wellFormed = true := by
  have hnot : ¬ HasReservedOperand o p := fun hr => by simp [decodeOperands_of_reserved hlen hr] at h
  obtain ⟨j, hj, rfl⟩ := decodeOperands_of_legal hlen hnot
  obtain rfl : j = i := Except.ok.inj (hj.symm.trans h)
  cases j with
  | chkid | cmpt | cmpp | cmph => rfl
  | ldcal a b =>
    obtain ⟨rfl, rfl⟩ := Instr.ldcal.inj (Except.ok.inj h)
    have hp : p.length = 33 := Nat.succ.inj hlen
    simp [Instr.wellFormed, hp]
  | rdcal k =>
    obtain ⟨k', rfl⟩ := List.length_eq_one_iff.1 (Nat.succ.inj hlen)
    have hk : k'.toNat ≤ 17 := Nat.not_lt.1 fun hk => hnot (.inl ⟨rfl, hk⟩)
    obtain rfl := Instr.rdcal.inj (Except.ok.inj ((if_pos hk).symm.trans h))
    exact decide_eq_true hk
  | unpk raw =>
    obtain rfl := Instr.unpk.inj (Except.ok.inj h)
    have hp : p.length = 8 := Nat.succ.inj hlen
    simp [Instr.wellFormed, hp]

/-- No decoded command fails the check of its operands (R248 step 2). -/
theorem wellFormed_of_decode {f : Frame} {i : Instr} (h : decode f = .ok i) : i.wellFormed = true := by
  cases f with
  | nil => simp [decode] at h
  | cons f0 p =>
    cases ho : Opcode.ofByte? f0 with
    | none => simp [decode, ho] at h
    | some o =>
      obtain rfl := code_of_ofByte? ho
      by_cases hlen : p.length + 1 = o.length
      · exact wellFormed_of_decodeOperands hlen ((decode_of_length hlen).symm.trans h)
      · simp [decode_of_wrongLength hlen] at h

end Sys2Proof

namespace Sys2Proof.Machine

variable {s : State}

/-! ## A halted block -/

/-- A halted block refuses every frame, legal or not, and changes nothing (R246). -/
theorem runFrame_of_halted (f : Frame) (hh : s.flags.halt = true) : runFrame f s = .next (s.respond [0x05#8]) := by
  rw [runFrame, if_pos hh]
  exact raise_eq .halted s

/-! ## One response, by its status -/

/-- `res` is a next state that adds to `s` one response of status `c`; when `c` is a fault's, the response is that one byte and
nothing is written but HALT, by IdentityMismatch (R249). -/
def AnswersWith (s : State) (c : Byte) (res : Result) : Prop :=
  ∃ t r, res = .next t ∧ t.outbox = s.outbox ++ [r] ∧ t.inbox = s.inbox ∧ r.head? = some c ∧
    (c ≠ 0x00#8 → r = [c] ∧ t.cal = s.cal ∧ t.tFine = s.tFine ∧
      t.flags = { s.flags with halt := s.flags.halt || c == 0x01#8 })

/-- A fault answers with its code (R240, R249). -/
theorem raise_answersWith (f : BlockFault) (s : State) : AnswersWith s f.code (raise f s) := by
  refine ⟨_, [f.code], raise_eq f s, ?_⟩
  cases f <;> simp [BlockFault.code]

/-- A command that completes answers with 0x00, whatever block state it has written (R90). -/
theorem completed_answersWith {u : State} (p : List Byte) (hout : u.outbox = s.outbox) (hin : u.inbox = s.inbox) :
    AnswersWith s 0x00#8 (.next (u.respond (0x00#8 :: p))) :=
  ⟨_, _, rfl, by rw [respond_outbox, hout], hin, rfl, fun h => absurd rfl h⟩

/-- A command that needs `CAL` (R248 step 3): a SequenceError without a CalibrationSet, and it completes with one. -/
theorem calibrated_answersWith {res : Result} (habsent : s.flags.calValid = false → res = .next (s.respond [0x02#8]))
    (hvalid : s.flags.calValid = true → AnswersWith s 0x00#8 res) :
    AnswersWith s (if s.flags.calValid then 0x00#8 else 0x02#8) res := by
  cases hc : s.flags.calValid with
  | false => exact habsent hc ▸ raise_answersWith .sequenceError s
  | true => exact hvalid hc

/-! ## The status of each command -/

/-- CHKID: IdentityMismatch for any byte but the expected one (R130). -/
theorem chkid_answersWith (id : Byte) (hh : s.flags.halt = false) :
    AnswersWith s (if id = Config.expectedId then 0x00#8 else 0x01#8) (exec (.chkid id) s) := by
  split
  case isTrue hid =>
    rw [hid, exec_chkid_of_match hh]
    exact completed_answersWith [] (setIdOk_outbox s) (setIdOk_inbox s)
  case isFalse hid => exact exec_chkid_of_mismatch hh hid ▸ raise_answersWith .identityMismatch s

/-- LDCAL: SequenceError is checked before CalibrationLocked (R131, R248). -/
theorem ldcal_answersWith {a b : List Byte} (hwf : (Instr.ldcal a b).wellFormed = true) (hh : s.flags.halt = false) :
    AnswersWith s (if s.flags.idOk then (if s.flags.calValid then 0x03#8 else 0x00#8) else 0x02#8)
      (exec (.ldcal a b) s) := by
  obtain ⟨ha, hb⟩ : a.length = 26 ∧ b.length = 7 := by simpa [Instr.wellFormed] using hwf
  cases hi : s.flags.idOk with
  | false => exact exec_ldcal_of_unchecked ha hb hh hi ▸ raise_answersWith .sequenceError s
  | true =>
    cases hc : s.flags.calValid with
    | false =>
      rw [exec_ldcal_of_checked ha hb hh hi hc]
      exact completed_answersWith [] (by simp) (by simp)
    | true => exact exec_ldcal_of_calibrated ha hb hh hi hc ▸ raise_answersWith .calibrationLocked s

/-- RDCAL of a legal index (R152). -/
theorem rdcal_answersWith {k : Byte} (hk : k.toNat ≤ 17) (hh : s.flags.halt = false) :
    AnswersWith s (if s.flags.calValid then 0x00#8 else 0x02#8) (exec (.rdcal k) s) := by
  obtain ⟨x, hx⟩ := coeffAt_isSome hk
  refine calibrated_answersWith (exec_rdcal_of_uncalibrated hk hh) fun hc => ?_
  exact exec_rdcal_of_ready hx hh hc ▸ completed_answersWith _ rfl rfl

/-- CMPT completes with a CalibrationSet (R201). -/
theorem cmpt_answersWith (adcT : BitVec 20) (hh : s.flags.halt = false) :
    AnswersWith s (if s.flags.calValid then 0x00#8 else 0x02#8) (exec (.cmpt adcT) s) := by
  refine calibrated_answersWith (exec_cmpt_of_uncalibrated adcT hh) fun hc => ?_
  rw [exec_cmpt_of_ready adcT hh hc]
  exact completed_answersWith _ (by simp) (by simp)

/-- CMPP completes with a CalibrationSet, whether or not a CMPT has run (R210). -/
theorem cmpp_answersWith (adcP : BitVec 20) (hh : s.flags.halt = false) :
    AnswersWith s (if s.flags.calValid then 0x00#8 else 0x02#8) (exec (.cmpp adcP) s) := by
  refine calibrated_answersWith (exec_cmpp_of_uncalibrated adcP hh) fun hc => ?_
  exact exec_cmpp_of_ready adcP hh hc ▸ completed_answersWith _ rfl rfl

/-- CMPH completes with a CalibrationSet, whether or not a CMPT has run (R220). -/
theorem cmph_answersWith (adcH : BitVec 16) (hh : s.flags.halt = false) :
    AnswersWith s (if s.flags.calValid then 0x00#8 else 0x02#8) (exec (.cmph adcH) s) := by
  refine calibrated_answersWith (exec_cmph_of_uncalibrated adcH hh) fun hc => ?_
  exact exec_cmph_of_ready adcH hh hc ▸ completed_answersWith _ rfl rfl

/-- UNPK of a burst needs neither a CHKID nor a CalibrationSet (R170). -/
theorem unpk_answersWith {raw : List Byte} (hwf : (Instr.unpk raw).wellFormed = true) (hh : s.flags.halt = false) :
    AnswersWith s 0x00#8 (exec (.unpk raw) s) := by
  have hl : raw.length = 8 := by simpa [Instr.wellFormed] using hwf
  exact exec_unpk_of_running hl hh ▸ completed_answersWith _ rfl rfl

/-- A decoded command, in a block that is not halted, answers with the status of steps 3 and 4 of R248. -/
theorem exec_answersWith {f : Frame} {i : Instr} (hd : decode f = .ok i) (hh : s.flags.halt = false) :
    AnswersWith s (expectedStatus f s) (exec i s) := by
  have hwf := wellFormed_of_decode hd
  simp only [expectedStatus, hh, hd]
  cases i with
  | chkid id => exact chkid_answersWith id hh
  | ldcal a b => exact ldcal_answersWith hwf hh
  | rdcal k => exact rdcal_answersWith (of_decide_eq_true hwf) hh
  | unpk raw => exact unpk_answersWith hwf hh
  | cmpt adcT => exact cmpt_answersWith adcT hh
  | cmpp adcP => exact cmpp_answersWith adcP hh
  | cmph adcH => exact cmph_answersWith adcH hh

/-- Every frame answers with the status of R248. -/
theorem runFrame_answersWith (f : Frame) (s : State) : AnswersWith s (expectedStatus f s) (runFrame f s) := by
  obtain ⟨hh, he⟩ | ⟨hh, ⟨e, hd⟩, he⟩ | ⟨hh, i, hd, he⟩ := runFrame_cases f s
  · have hst : expectedStatus f s = 0x05#8 := if_pos hh
    exact hst ▸ he ▸ raise_answersWith .halted s
  · have hst : expectedStatus f s = 0x04#8 := by simp only [expectedStatus, hh, hd, Bool.false_eq_true, if_false]
    exact hst ▸ he ▸ raise_answersWith .illegalCommand s
  · exact he ▸ exec_answersWith hd hh

end Sys2Proof.Machine

namespace Sys2Proof.Proofs

open Machine

/-- Settles O9: `AnswersWith` is the statement for one status, and every frame answers with the status of R248. -/
theorem faultPriorityAndEffect : Obligations.FaultPriorityAndEffect := runFrame_answersWith

/-- Settles O12, by induction on the frames: each leaves a state that is still halted. -/
theorem haltIsPermanentUntilReset : Obligations.HaltIsPermanentUntilReset := by
  intro fs
  induction fs with
  | nil => intro s _; simp [runFrames]
  | cons f fs ih =>
    intro s hh
    have hnext : (s.respond [0x05#8]).flags.halt = true := hh
    rw [runFrames, runFrame_of_halted f hh, andThen_next, ih _ hnext]
    simp [respond_eq]

/-- Settles O11: the refusals of each command by its own check, and CMPP and CMPH complete without a look at TF_VALID. -/
theorem sequenceErrorWithoutPrerequisite : Obligations.SequenceErrorWithoutPrerequisite := by
  refine fun s hh => ⟨fun a b ha hb hi => exec_ldcal_of_unchecked ha hb hh hi, fun hc => ?_, fun hc => ?_⟩
  · exact ⟨fun k hk => exec_rdcal_of_uncalibrated hk hh hc, fun adcT => exec_cmpt_of_uncalibrated adcT hh hc,
      fun adcP => exec_cmpp_of_uncalibrated adcP hh hc, fun adcH => exec_cmph_of_uncalibrated adcH hh hc⟩
  · exact ⟨fun adcP => ⟨_, exec_cmpp_of_ready adcP hh hc⟩, fun adcH => ⟨_, exec_cmph_of_ready adcH hh hc⟩⟩

end Sys2Proof.Proofs
end

section
/-! PROOF. Exactness and bounds for any binary64 implementation that is monotone and exact on exactly representable results
(R193): the numbers a binary64 value can be, and one lemma per operation for a result that is one of them or is bounded by
one. -/

namespace Sys2Proof.F64

set_option exponentiation.threshold 4096

/-! ## Numbers that a finite value is -/

/-- q is the value of a finite binary64 number. -/
def Attained (q : ℚ) : Prop := ∃ x : F64, x.isFinite = true ∧ x.value = q

theorem attained_value {x : F64} (h : x.isFinite = true) : Attained x.value := ⟨x, h, rfl⟩

theorem attained_neg {q : ℚ} (h : Attained q) : Attained (-q) := by
  obtain ⟨x, hx, rfl⟩ := h
  exact ⟨x.neg, by simpa using hx, value_neg x⟩

/-- A representable magnitude below 2^1024 is attained. -/
theorem attained_of_representable {m : ℕ} (hm : Representable m) (hlt : m < rangeUnits) :
    Attained ((m : ℚ) / unitsPerOne) := by
  obtain ⟨hfin, hmag⟩ := round_of_representable (neg := false) Nat.one_pos hm hlt
  exact ⟨_, hfin, by rw [value_eq, hmag, sign_round]; simp⟩

/-- A whole number of at most 53 bits over a power of two. -/
theorem attained_natCast_div {n k : ℕ} (hn : n < 2 ^ 53) (hk : k ≤ 1074) : Attained ((n : ℚ) / 2 ^ k) := by
  have h := attained_of_representable (representable_mul_pow (1074 - k) hn) (mul_pow_lt_range hn (by omega))
  have hu : (unitsPerOne : ℚ) = 2 ^ (1074 - k) * 2 ^ k := by
    rw [← pow_add, Nat.sub_add_cancel hk, unitsPerOne, Nat.cast_pow, Nat.cast_ofNat]
  rw [hu, Nat.cast_mul, Nat.cast_pow, Nat.cast_ofNat, mul_comm (2 ^ (1074 - k)),
    mul_div_mul_right _ _ (by positivity)] at h
  exact h

theorem attained_intCast_div {i : ℤ} {k : ℕ} (hi : i.natAbs < 2 ^ 53) (hk : k ≤ 1074) : Attained ((i : ℚ) / 2 ^ k) := by
  have h := attained_natCast_div hi hk
  obtain he | he := Int.natAbs_eq i
  · rwa [he, Int.cast_natCast]
  · rw [he, Int.cast_neg, Int.cast_natCast, neg_div]
    exact attained_neg h

theorem attained_intCast {i : ℤ} (hi : i.natAbs < 2 ^ 53) : Attained (i : ℚ) := by
  simpa using attained_intCast_div (k := 0) hi (by norm_num)

theorem attained_natCast {n : ℕ} (hn : n < 2 ^ 53) : Attained (n : ℚ) := by
  simpa using attained_natCast_div (k := 0) hn (by norm_num)

theorem attained_two_pow {k : ℕ} (hk : k < 1024) : Attained (2 ^ k) := by
  have h := attained_of_representable (representable_pow (k + 1074)) (pow_lt_range (by omega))
  rw [unitsPerOne, pow_add, Nat.cast_mul, Nat.cast_pow, Nat.cast_ofNat] at h
  simpa using h

theorem attained_zero : Attained 0 := by simpa using attained_natCast (n := 0) (by norm_num)

/-! ## Exact and bounded values -/

/-- x is the finite value q. -/
def Exactly (x : F64) (q : ℚ) : Prop := x.isFinite = true ∧ x.value = q

/-- x is finite and of magnitude at most b. -/
def Within (x : F64) (b : ℚ) : Prop := x.isFinite = true ∧ |x.value| ≤ b

variable {x y : F64} {p q a b c : ℚ}

theorem Exactly.within (h : Exactly x q) (hq : |q| ≤ b) : Within x b := ⟨h.1, by rwa [h.2]⟩

theorem Within.mono (h : Within x a) (hab : a ≤ b) : Within x b := ⟨h.1, h.2.trans hab⟩

/-- Exact on an exactly representable result. -/
theorem Between.exactly (h : Between q x) (hq : Attained q) : Exactly x q := by
  obtain ⟨z, hz, rfl⟩ := hq
  obtain ⟨hfin, hlo, hhi⟩ := h z z hz hz le_rfl le_rfl
  exact ⟨hfin, le_antisymm hhi hlo⟩

/-- Monotone: a representable bound of the exact result bounds the rounded one. -/
theorem Between.within (h : Between q x) (hb : Attained b) (hq : |q| ≤ b) : Within x b := by
  obtain ⟨hi, hhi, rfl⟩ := hb
  obtain ⟨lo, hlo, hneg⟩ := attained_neg (attained_value hhi)
  obtain ⟨hl, hu⟩ := abs_le.1 hq
  obtain ⟨hfin, h1, h2⟩ := h lo hi hlo hhi (hneg ▸ hl) hu
  exact ⟨hfin, abs_le.2 ⟨hneg ▸ h1, h2⟩⟩

/-! ## One lemma per operation -/

section Operations
variable {ar : Binary64} (hM : ar.MonotoneExact)
include hM

theorem exactly_ofInt {i : ℤ} (hi : i.natAbs < 2 ^ 53) : Exactly (ar.ofInt i) i :=
  (hM.ofInt i hi).exactly (attained_intCast hi)

theorem exactly_lit {n : ℕ} (hn : n < 2 ^ 53) : Exactly (Machine.lit ar n) n :=
  exactly_ofInt hM (i := n) (by simpa using hn)

theorem exactly_fu {k : ℕ} (v : BitVec k) (hk : k ≤ 53) : Exactly (Machine.fu ar v) v.toNat :=
  exactly_lit hM (v.isLt.trans_le (Nat.pow_le_pow_right (by norm_num) hk))

theorem exactly_fs {k : ℕ} (v : BitVec k) (hk : k ≤ 53) : Exactly (Machine.fs ar v) v.toInt :=
  exactly_ofInt hM ((natAbs_toInt_le v).trans_lt (Nat.pow_lt_pow_right (by norm_num) (by omega)))

theorem exactly_sub (hx : Exactly x p) (hy : Exactly y q) (h : Attained (p - q)) : Exactly (ar.sub x y) (p - q) := by
  obtain ⟨hfx, rfl⟩ := hx
  obtain ⟨hfy, rfl⟩ := hy
  exact (hM.sub x y hfx hfy).exactly h

theorem exactly_mul (hx : Exactly x p) (hy : Exactly y q) (h : Attained (p * q)) : Exactly (ar.mul x y) (p * q) := by
  obtain ⟨hfx, rfl⟩ := hx
  obtain ⟨hfy, rfl⟩ := hy
  exact (hM.mul x y hfx hfy).exactly h

theorem exactly_div (hx : Exactly x p) (hy : Exactly y q) (hq : q ≠ 0) (h : Attained (p / q)) :
    Exactly (ar.div x y) (p / q) := by
  obtain ⟨hfx, rfl⟩ := hx
  obtain ⟨hfy, rfl⟩ := hy
  exact (hM.div x y hfx hfy hq).exactly h

theorem within_add (hx : Within x a) (hy : Within y b) (hc : Attained c) (h : a + b ≤ c) : Within (ar.add x y) c :=
  (hM.add x y hx.1 hy.1).within hc ((abs_add_le _ _).trans ((add_le_add hx.2 hy.2).trans h))

theorem within_sub (hx : Within x a) (hy : Within y b) (hc : Attained c) (h : a + b ≤ c) : Within (ar.sub x y) c :=
  (hM.sub x y hx.1 hy.1).within hc ((abs_sub _ _).trans ((add_le_add hx.2 hy.2).trans h))

theorem within_mul (hx : Within x a) (hy : Within y b) (hc : Attained c) (h : a * b ≤ c) : Within (ar.mul x y) c := by
  refine (hM.mul x y hx.1 hy.1).within hc ?_
  rw [abs_mul]
  exact (mul_le_mul hx.2 hy.2 (abs_nonneg _) ((abs_nonneg _).trans hx.2)).trans h

/-- A quotient, by a positive lower bound of the divisor's magnitude. -/
theorem within_div (hx : Within x a) (hy : y.isFinite = true) (hpos : 0 < b) (hb : b ≤ |y.value|) (hc : Attained c)
    (h : a ≤ c * b) : Within (ar.div x y) c := by
  have hy0 : 0 < |y.value| := hpos.trans_le hb
  have hc0 : 0 ≤ c := nonneg_of_mul_nonneg_left (((abs_nonneg _).trans hx.2).trans h) hpos
  refine (hM.div x y hx.1 hy (abs_pos.1 hy0)).within hc ?_
  rw [abs_div, div_le_iff₀ hy0]
  exact hx.2.trans (h.trans (mul_le_mul_of_nonneg_left hb hc0))

/-- A quotient by a literal. -/
theorem within_div_lit {n : ℕ} (hx : Within x a) (hpos : 0 < n) (hn : n < 2 ^ 53) (hc : Attained c) (h : a ≤ c * n) :
    Within (ar.div x (Machine.lit ar n)) c := by
  obtain ⟨hfin, hval⟩ := exactly_lit hM hn
  exact within_div hM hx hfin (Nat.cast_pos.2 hpos) (by rw [hval, Nat.abs_cast]) hc h

theorem within_lit {n : ℕ} (hn : n < 2 ^ 53) : Within (Machine.lit ar n) n :=
  (exactly_lit hM hn).within (Nat.abs_cast n).le

end Operations

end Sys2Proof.F64
end

section
/-! PROOF. The bound on `T_FINE` (R26, R203): which terms of TFormula are exact (R204), and the bound on its sum, for any
binary64 implementation that is monotone and exact on exactly representable results. -/

namespace Sys2Proof.Machine

open F64

/-! ## The exact terms of TFormula -/

/-- What both differences of TFormula are in units of their last place: `adc_T - 16 T1` (R204). -/
def countOffset (adcT : BitVec 20) (t1 : BitVec 16) : ℤ := adcT.toNat - 16 * t1.toNat

/-- The greatest count bounds it on both sides: `16 (2^16 - 1)` is less. -/
theorem countOffset_natAbs_le (adcT : BitVec 20) (t1 : BitVec 16) : (countOffset adcT t1).natAbs ≤ 1048575 := by
  have h1 := adcT.isLt
  have h2 := t1.isLt
  unfold countOffset
  omega

theorem abs_countOffset_le (adcT : BitVec 20) (t1 : BitVec 16) : |(countOffset adcT t1 : ℚ)| ≤ 1048575 := by
  rw [← Int.cast_abs, Int.abs_eq_natAbs]
  exact_mod_cast countOffset_natAbs_le adcT t1

theorem abs_coeff16_le (v : BitVec 16) : |(v.toInt : ℚ)| ≤ 32768 := by
  rw [← Int.cast_abs, Int.abs_eq_natAbs]
  exact_mod_cast natAbs_toInt_le v

/-- A difference of a count and T1, each scaled to the same unit 2^-(k+4). -/
theorem sub_eq_countOffset_div (adcT : BitVec 20) (t1 : BitVec 16) (k : ℕ) :
    (adcT.toNat / 2 ^ (k + 4) - t1.toNat / 2 ^ k : ℚ) = countOffset adcT t1 / 2 ^ (k + 4) := by
  unfold countOffset
  push_cast
  field_simp
  ring

section Terms
variable {ar : Binary64} (hM : ar.MonotoneExact)
include hM

/-- An unsigned operand over a literal power of two. -/
theorem exactly_fu_div_lit {w n k : ℕ} (v : BitVec w) (hw : w ≤ 53) (hn : n = 2 ^ k) (hk : k < 53) :
    Exactly (ar.div (fu ar v) (lit ar n)) ((v.toNat : ℚ) / 2 ^ k) := by
  subst hn
  have hv : v.toNat < 2 ^ 53 := v.isLt.trans_le (Nat.pow_le_pow_right (by norm_num) hw)
  have hlit := exactly_lit hM (Nat.pow_lt_pow_right (by norm_num : 1 < 2) hk)
  rw [Nat.cast_pow, Nat.cast_ofNat] at hlit
  exact exactly_div hM (exactly_fu hM v hw) hlit (by positivity) (attained_natCast_div hv (by omega))

/-- The difference is exact: it has at most 20 bits above its unit. -/
theorem exactly_difference {x y : F64} {k : ℕ} (adcT : BitVec 20) (t1 : BitVec 16) (hk : k + 4 ≤ 1074)
    (hx : Exactly x (adcT.toNat / 2 ^ (k + 4))) (hy : Exactly y (t1.toNat / 2 ^ k)) :
    Exactly (ar.sub x y) (countOffset adcT t1 / 2 ^ (k + 4)) := by
  have hbound := countOffset_natAbs_le adcT t1
  rw [← sub_eq_countOffset_div]
  refine exactly_sub hM hx hy ?_
  rw [sub_eq_countOffset_div]
  exact attained_intCast_div (by omega) hk

/-- The bracket of the first term, `adc_T / 16384 - T1 / 1024`. -/
theorem exactly_firstBracket (adcT : BitVec 20) (t1 : BitVec 16) :
    Exactly (ar.sub (ar.div (fu ar adcT) (lit ar 16384)) (ar.div (fu ar t1) (lit ar 1024)))
      (countOffset adcT t1 / 2 ^ 14) :=
  exactly_difference hM (k := 10) adcT t1 (by norm_num)
    (exactly_fu_div_lit hM adcT (by norm_num) (by norm_num) (by norm_num))
    (exactly_fu_div_lit hM t1 (by norm_num) (by norm_num) (by norm_num))

/-- The bracket of the second term, `adc_T / 131072 - T1 / 8192`. -/
theorem exactly_secondBracket (adcT : BitVec 20) (t1 : BitVec 16) :
    Exactly (ar.sub (ar.div (fu ar adcT) (lit ar 131072)) (ar.div (fu ar t1) (lit ar 8192)))
      (countOffset adcT t1 / 2 ^ 17) :=
  exactly_difference hM (k := 13) adcT t1 (by norm_num)
    (exactly_fu_div_lit hM adcT (by norm_num) (by norm_num) (by norm_num))
    (exactly_fu_div_lit hM t1 (by norm_num) (by norm_num) (by norm_num))

/-- The first term: a 20-bit number times a 16-bit one has at most 53 bits. -/
theorem exactly_firstTerm {x : F64} {adcT : BitVec 20} {t1 : BitVec 16} (t2 : BitVec 16)
    (hx : Exactly x (countOffset adcT t1 / 2 ^ 14)) :
    Exactly (ar.mul x (fs ar t2)) (countOffset adcT t1 / 2 ^ 14 * t2.toInt) := by
  have hbits : (countOffset adcT t1 * t2.toInt).natAbs < 2 ^ 53 := by
    rw [Int.natAbs_mul]
    exact (Nat.mul_le_mul (countOffset_natAbs_le adcT t1) (natAbs_toInt_le t2)).trans_lt (by norm_num)
  refine exactly_mul hM hx (exactly_fs hM t2 (by norm_num)) ?_
  rw [div_mul_eq_mul_div, ← Int.cast_mul]
  exact attained_intCast_div hbits (by norm_num)

/-- The square of the second bracket has at most 53 bits. -/
theorem exactly_square {x : F64} {adcT : BitVec 20} {t1 : BitVec 16} (hx : Exactly x (countOffset adcT t1 / 2 ^ 17)) :
    Exactly (ar.mul x x) (countOffset adcT t1 / 2 ^ 17 * (countOffset adcT t1 / 2 ^ 17)) := by
  have hbits : (countOffset adcT t1 * countOffset adcT t1).natAbs < 2 ^ 53 := by
    rw [Int.natAbs_mul]
    exact (Nat.mul_le_mul (countOffset_natAbs_le adcT t1) (countOffset_natAbs_le adcT t1)).trans_lt (by norm_num)
  refine exactly_mul hM hx hx ?_
  rw [div_mul_div_comm, ← Int.cast_mul, ← pow_add]
  exact attained_intCast_div hbits (by norm_num)

/-! ## The bound on the sum -/

theorem within_firstTerm {x : F64} {adcT : BitVec 20} {t1 : BitVec 16} (t2 : BitVec 16)
    (hx : Exactly x (countOffset adcT t1 / 2 ^ 14)) : Within (ar.mul x (fs ar t2)) 2097150 := by
  refine (exactly_firstTerm hM t2 hx).within ?_
  rw [abs_mul, abs_div]
  calc |(countOffset adcT t1 : ℚ)| / |2 ^ 14| * |(t2.toInt : ℚ)|
    _ ≤ 1048575 / |2 ^ 14| * 32768 := by
      gcongr
      exacts [abs_countOffset_le adcT t1, abs_coeff16_le t2]
    _ = 2097150 := by norm_num

/-- The second term rounds: its exact magnitude is at most `1048575^2 / 2^19`, below the whole number 2097149. -/
theorem within_secondTerm {x : F64} {adcT : BitVec 20} {t1 : BitVec 16} (t3 : BitVec 16)
    (hx : Exactly x (countOffset adcT t1 / 2 ^ 17)) : Within (ar.mul (ar.mul x x) (fs ar t3)) 2097149 := by
  have hsquare : Within (ar.mul x x) (1048575 / 2 ^ 17 * (1048575 / 2 ^ 17)) := by
    refine (exactly_square hM hx).within ?_
    rw [abs_mul, abs_div, abs_of_pos (by norm_num : (0 : ℚ) < 2 ^ 17)]
    gcongr <;> exact abs_countOffset_le adcT t1
  refine within_mul hM hsquare ((exactly_fs hM t3 (by norm_num)).within (abs_coeff16_le t3)) ?_ (by norm_num)
  exact attained_natCast (n := 2097149) (by norm_num)

/-- Whatever the arithmetic rounds, the sum of TFormula stays below 2^22 in magnitude (R203). -/
theorem within_tSum (adcT : BitVec 20) (c : TempCoeffs) : Within (tSum ar adcT c) 4194299 := by
  refine within_add hM (within_firstTerm hM c.t2 (exactly_firstBracket hM adcT c.t1))
    (within_secondTerm hM c.t3 (exactly_secondBracket hM adcT c.t1)) ?_ (by norm_num)
  exact attained_natCast (n := 4194299) (by norm_num)

theorem abs_tSum_lt (adcT : BitVec 20) (c : TempCoeffs) : |(tSum ar adcT c).value| < 4194304 :=
  (within_tSum hM adcT c).2.trans_lt (by norm_num)

/-- The value CMPT writes to `T_FINE` lies strictly between -2^22 and 2^22 (R26, R203). -/
theorem trunc_tSum_bounds (adcT : BitVec 20) (c : TempCoeffs) :
    -4194304 < (ar.trunc (tSum ar adcT c)).toInt ∧ (ar.trunc (tSum ar adcT c)).toInt < 4194304 := by
  have hlt := abs_tSum_lt hM adcT c
  have htrunc := hM.trunc _ (within_tSum hM adcT c).1 (hlt.trans (by norm_num))
  have habs : |(((ar.trunc (tSum ar adcT c)).toInt : ℤ) : ℚ)| < 4194304 := htrunc.trans_lt hlt
  exact abs_lt.1 (by exact_mod_cast habs)

end Terms

end Sys2Proof.Machine

namespace Sys2Proof.Proofs

open Machine F64

/-- Settles O56: the bound on the sum, and `T_FINE` is no larger than the sum. -/
theorem temperatureFineBoundForAnyArithmetic : Obligations.TemperatureFineBoundForAnyArithmetic := by
  rintro ar adcT s hM ⟨hh, hc⟩
  obtain ⟨hlow, hhigh⟩ := trunc_tSum_bounds hM adcT s.calRegs.temp
  refine ⟨(within_tSum hM adcT _).1, abs_tSum_lt hM adcT _, _, compensateTemperature_of_ready ar adcT hh hc, ?_⟩
  rw [respond_tFine, setTfValid_tFine, writeTFine_tFine]
  exact ⟨rfl, rfl, hlow, hhigh⟩

/-- Settles O24: the machine's own arithmetic is exact on each of these terms. -/
theorem temperatureTermsAreExact : Obligations.TemperatureTermsAreExact := by
  intro adcT t1 t2
  have hM := Binary64.ieee_monotoneExact
  have ha := (exactly_fu_div_lit hM adcT (n := 16384) (k := 14) (by norm_num) rfl (by norm_num)).2
  have hb := (exactly_fu_div_lit hM t1 (n := 1024) (k := 10) (by norm_num) rfl (by norm_num)).2
  have he := (exactly_fu_div_lit hM adcT (n := 131072) (k := 17) (by norm_num) rfl (by norm_num)).2
  have hf := (exactly_fu_div_lit hM t1 (n := 8192) (k := 13) (by norm_num) rfl (by norm_num)).2
  have hd := (exactly_firstBracket hM adcT t1).2
  have hg := (exactly_secondBracket hM adcT t1).2
  have hv := (exactly_firstTerm hM t2 (exactly_firstBracket hM adcT t1)).2
  have hs := (exactly_square hM (exactly_secondBracket hM adcT t1)).2
  have h14 := sub_eq_countOffset_div adcT t1 10
  have h17 := sub_eq_countOffset_div adcT t1 13
  simp only [lit_ieee, fu_ieee, fs_ieee, ieee_sub, ieee_mul, ieee_div, Nat.cast_ofNat] at ha hb he hf hd hg hv hs
  refine ⟨ha.trans (by norm_num), hb.trans (by norm_num), he.trans (by norm_num), hf.trans (by norm_num), ?_, ?_, ?_, ?_⟩
  · rw [hd, ha, hb, h14]
  · rw [hv, ha, hb, h14]
  · rw [hg, he, hf, h17]
  · rw [hs, he, hf, h17, sq]

end Sys2Proof.Proofs
end

section
/-! PROOF. What a command does to the block, said once: it answers from the block's state alone and writes nothing, or it is
CHKID, LDCAL or CMPT passing its checks. -/

namespace Sys2Proof.Machine

variable {i : Instr} {s t : State}

/-! ## Commands that write nothing -/

/-- The command answers every block in the state of `s` with one and the same response, of the length of its row when it is an
OK, and writes nothing. -/
def AnswersAlike (i : Instr) (s : State) : Prop :=
  ∃ r : Frame, (r.head? = some 0x00#8 → r.length = okLength i) ∧ ∀ u, s.sameBlock u → exec i u = .next (u.respond r)

/-- A fault that writes nothing. -/
theorem answersAlike_of_fault (f : BlockFault) (h : ∀ u, s.sameBlock u → exec i u = .next (u.respond [f.code])) :
    AnswersAlike i s :=
  ⟨[f.code], by cases f <;> simp [BlockFault.code], h⟩

/-- An OK with a payload of the length of the command's row. -/
theorem answersAlike_of_ok {p : List Byte} (hp : p.length + 1 = okLength i)
    (h : ∀ u, s.sameBlock u → exec i u = .next (u.respond (0x00#8 :: p))) : AnswersAlike i s :=
  ⟨0x00#8 :: p, fun _ => hp, h⟩

theorem answersAlike_of_halted (i : Instr) (hh : s.flags.halt = true) : AnswersAlike i s := by
  refine answersAlike_of_fault .halted ?_
  rintro u ⟨-, -, hflags⟩
  exact exec_of_halted i (hflags ▸ hh)

/-- A command whose checks are those of CMPT, CMPP and CMPH, without a CalibrationSet. -/
theorem answersAlike_of_uncalibrated (hh : s.flags.halt = false) (hc : s.flags.calValid = false)
    (h : ∀ u : State, u.flags.halt = false → u.flags.calValid = false → exec i u = .next (u.respond [0x02#8])) :
    AnswersAlike i s := by
  refine answersAlike_of_fault .sequenceError ?_
  rintro u ⟨-, -, hflags⟩
  exact h u (hflags ▸ hh) (hflags ▸ hc)

/-- A command that needs a CalibrationSet and writes nothing. -/
theorem answersAlike_of_calibrated {p : State → List Byte} (hp : (p s).length + 1 = okLength i)
    (habsent : ∀ u : State, u.flags.halt = false → u.flags.calValid = false → exec i u = .next (u.respond [0x02#8]))
    (hvalid : ∀ u : State, u.flags.halt = false → u.flags.calValid = true → exec i u = .next (u.respond (0x00#8 :: p u)))
    (hreads : ∀ u, s.sameBlock u → p u = p s) : AnswersAlike i s := by
  cases hh : s.flags.halt with
  | true => exact answersAlike_of_halted i hh
  | false =>
    cases hc : s.flags.calValid with
    | false => exact answersAlike_of_uncalibrated hh hc habsent
    | true =>
      refine answersAlike_of_ok hp fun u hu => ?_
      rw [← hreads u hu]
      obtain ⟨-, -, hflags⟩ := hu
      exact hvalid u (hflags ▸ hh) (hflags ▸ hc)

theorem word32Bytes_length (w : BitVec 32) : (word32Bytes w).length = 4 := leBytes_length 4 _

theorem f64Bytes_length (x : F64) : (f64Bytes x).length = 8 := leBytes_length 8 _

theorem rawSampleBytes_length (raw : List Byte) : (rawSampleBytes raw).length = 8 := by simp [rawSampleBytes]

theorem rdcal_answersAlike (k : Byte) (s : State) : AnswersAlike (.rdcal k) s := by
  by_cases hk : k.toNat ≤ 17
  · obtain ⟨x, hx⟩ := coeffAt_isSome hk
    refine answersAlike_of_calibrated (p := fun u => word32Bytes (coeffWord u.calRegs x))
      (congrArg (· + 1) (word32Bytes_length _)) (fun u => exec_rdcal_of_uncalibrated hk)
      (fun u => exec_rdcal_of_ready hx) ?_
    rintro u ⟨hcal, -, -⟩
    rw [calRegs_congr hcal]
  · cases hh : s.flags.halt with
    | true => exact answersAlike_of_halted _ hh
    | false =>
      refine answersAlike_of_fault .illegalCommand ?_
      rintro u ⟨-, -, hflags⟩
      exact exec_rdcal_of_reserved (Nat.not_le.1 hk) (hflags ▸ hh)

theorem cmpp_answersAlike (adcP : BitVec 20) (s : State) : AnswersAlike (.cmpp adcP) s := by
  refine answersAlike_of_calibrated (p := fun u => f64Bytes (defaultPFormula .ieee Config.nanBits adcP u.calRegs.press u.tFine))
    (congrArg (· + 1) (f64Bytes_length _)) (fun u => exec_cmpp_of_uncalibrated adcP) (fun u => exec_cmpp_of_ready adcP) ?_
  rintro u ⟨hcal, htf, -⟩
  rw [calRegs_congr hcal, htf]

theorem cmph_answersAlike (adcH : BitVec 16) (s : State) : AnswersAlike (.cmph adcH) s := by
  refine answersAlike_of_calibrated
    (p := fun u => f64Bytes (clampHumidity .ieee (defaultHFormula .ieee adcH u.calRegs.hum u.tFine)))
    (congrArg (· + 1) (f64Bytes_length _)) (fun u => exec_cmph_of_uncalibrated adcH) (fun u => exec_cmph_of_ready adcH) ?_
  rintro u ⟨hcal, htf, -⟩
  rw [calRegs_congr hcal, htf]

theorem unpk_answersAlike (raw : List Byte) (s : State) : AnswersAlike (.unpk raw) s := by
  cases hh : s.flags.halt with
  | true => exact answersAlike_of_halted _ hh
  | false =>
    by_cases hl : raw.length = 8
    · refine answersAlike_of_ok (congrArg (· + 1) (rawSampleBytes_length raw)) ?_
      rintro u ⟨-, -, hflags⟩
      exact exec_unpk_of_running hl (hflags ▸ hh)
    · refine answersAlike_of_fault .illegalCommand ?_
      rintro u ⟨-, -, hflags⟩
      rw [exec, execUnpk, unlessHalted_of_running (hflags ▸ hh),
        whenWellFormed_of_not (by simpa [Instr.wellFormed] using hl)]
      exact raise_eq .illegalCommand u

/-! ## Commands that write -/

/-- CHKID either refuses, or sets ID_OK, or sets HALT (R130). -/
theorem exec_chkid_cases (id : Byte) (s : State) : AnswersAlike (.chkid id) s ∨
    exec (.chkid id) s = .next (s.setIdOk.respond [0x00#8]) ∨ exec (.chkid id) s = .next (s.setHalt.respond [0x01#8]) := by
  cases hh : s.flags.halt with
  | true => exact .inl (answersAlike_of_halted _ hh)
  | false =>
    by_cases hid : id = Config.expectedId
    · exact .inr (.inl (hid ▸ exec_chkid_of_match hh))
    · exact .inr (.inr (exec_chkid_of_mismatch hh hid))

/-- LDCAL either refuses, or calibrates a block that is checked and not yet calibrated (R131). -/
theorem exec_ldcal_cases (a b : List Byte) (s : State) : AnswersAlike (.ldcal a b) s ∨
    (s.flags.idOk = true ∧ s.flags.calValid = false ∧
      exec (.ldcal a b) s = .next ((s.writeCal (decodeBlocks a b)).setCalValid.respond [0x00#8])) := by
  cases hh : s.flags.halt with
  | true => exact .inl (answersAlike_of_halted _ hh)
  | false =>
    by_cases hl : a.length = 26 ∧ b.length = 7
    · obtain ⟨ha, hb⟩ := hl
      cases hi : s.flags.idOk with
      | false =>
        refine .inl (answersAlike_of_fault .sequenceError ?_)
        rintro u ⟨-, -, hflags⟩
        exact exec_ldcal_of_unchecked ha hb (hflags ▸ hh) (hflags ▸ hi)
      | true =>
        cases hc : s.flags.calValid with
        | false => exact .inr ⟨rfl, rfl, exec_ldcal_of_checked ha hb hh hi hc⟩
        | true =>
          refine .inl (answersAlike_of_fault .calibrationLocked ?_)
          rintro u ⟨-, -, hflags⟩
          exact exec_ldcal_of_calibrated ha hb (hflags ▸ hh) (hflags ▸ hi) (hflags ▸ hc)
    · refine .inl (answersAlike_of_fault .illegalCommand ?_)
      rintro u ⟨-, -, hflags⟩
      rw [exec, execLdcal, unlessHalted_of_running (hflags ▸ hh),
        whenWellFormed_of_not (by simpa [Instr.wellFormed] using hl)]
      exact raise_eq .illegalCommand u

/-- CMPT refuses, unless the block is ready (R201). -/
theorem exec_cmpt_cases (adcT : BitVec 20) (s : State) : AnswersAlike (.cmpt adcT) s ∨ s.ready := by
  cases hh : s.flags.halt with
  | true => exact .inl (answersAlike_of_halted _ hh)
  | false =>
    cases hc : s.flags.calValid with
    | false => exact .inl (answersAlike_of_uncalibrated hh hc fun u => exec_cmpt_of_uncalibrated adcT)
    | true => exact .inr ⟨hh, hc⟩

/-! ## The next state of every command -/

/-- The next state of a command that writes nothing. -/
theorem AnswersAlike.next_eq (h : AnswersAlike i s) (he : exec i s = .next t) :
    ∃ r : Frame, (r.head? = some 0x00#8 → r.length = okLength i) ∧ t = s.respond r := by
  obtain ⟨r, hr, hu⟩ := h
  exact ⟨r, hr, Host.Outcome.next.inj (he.symm.trans (hu s ⟨rfl, rfl, rfl⟩))⟩

/-- The next state of CMPT in a ready block; the response is 12 bytes and the status. -/
theorem exec_cmpt_next {adcT : BitVec 20} (hready : s.ready) (he : exec (.cmpt adcT) s = .next t) :
    ∃ r : Frame, r.length = 13 ∧ t = (s.writeTFine (tSum .ieee adcT s.calRegs.temp).trunc).setTfValid.respond r := by
  obtain ⟨hh, hc⟩ := hready
  rw [exec_cmpt_of_ready adcT hh hc, Host.Outcome.next.injEq] at he
  refine ⟨_, ?_, he.symm⟩
  rw [List.length_cons, List.length_append, f64Bytes_length, word32Bytes_length]

/-- Everything a command can leave, and the length of its OK response. -/
theorem exec_outcomes (h : exec i s = .next t) :
    (AnswersAlike i s ∧ ∃ r : Frame, (r.head? = some 0x00#8 → r.length = okLength i) ∧ t = s.respond r) ∨
    (∃ id, i = .chkid id ∧ (t = s.setIdOk.respond [0x00#8] ∨ t = s.setHalt.respond [0x01#8])) ∨
    (∃ a b, i = .ldcal a b ∧ s.flags.idOk = true ∧ s.flags.calValid = false ∧
      t = (s.writeCal (decodeBlocks a b)).setCalValid.respond [0x00#8]) ∨
    (∃ (adcT : BitVec 20) (r : Frame), i = .cmpt adcT ∧ s.ready ∧ r.length = 13 ∧
      t = (s.writeTFine (tSum .ieee adcT s.calRegs.temp).trunc).setTfValid.respond r) := by
  have hnext {u : State} (he : exec i s = .next u) : t = u := Host.Outcome.next.inj (h.symm.trans he)
  cases i with
  | chkid id =>
    obtain halike | hok | hmismatch := exec_chkid_cases id s
    · exact .inl ⟨halike, halike.next_eq h⟩
    · exact .inr (.inl ⟨id, rfl, .inl (hnext hok)⟩)
    · exact .inr (.inl ⟨id, rfl, .inr (hnext hmismatch)⟩)
  | ldcal a b =>
    obtain halike | ⟨hi, hc, hok⟩ := exec_ldcal_cases a b s
    · exact .inl ⟨halike, halike.next_eq h⟩
    · exact .inr (.inr (.inl ⟨a, b, rfl, hi, hc, hnext hok⟩))
  | rdcal k => exact .inl ⟨rdcal_answersAlike k s, (rdcal_answersAlike k s).next_eq h⟩
  | unpk raw => exact .inl ⟨unpk_answersAlike raw s, (unpk_answersAlike raw s).next_eq h⟩
  | cmpt adcT =>
    obtain halike | hready := exec_cmpt_cases adcT s
    · exact .inl ⟨halike, halike.next_eq h⟩
    · obtain ⟨r, hr, ht⟩ := exec_cmpt_next hready h
      exact .inr (.inr (.inr ⟨adcT, r, rfl, hready, hr, ht⟩))
  | cmpp adcP => exact .inl ⟨cmpp_answersAlike adcP s, (cmpp_answersAlike adcP s).next_eq h⟩
  | cmph adcH => exact .inl ⟨cmph_answersAlike adcH s, (cmph_answersAlike adcH s).next_eq h⟩

end Sys2Proof.Machine
end

section
/-! PROOF. The invariant of the reachable states (R37): every update a command makes keeps it, so every step does. -/

namespace Sys2Proof.Machine

variable {s t : State}

/-! ## The updates keep the invariant -/

/-- The invariant speaks of the block alone. -/
theorem inv_congr (h : s.sameBlock t) (hinv : s.Inv) : t.Inv := by
  obtain ⟨hcal, htf, hflags⟩ := h
  obtain ⟨hpresent, hid, hcalv, hzero, hlow, hhigh⟩ := hinv
  rw [hcal, hflags] at hpresent
  rw [hflags] at hid hcalv hzero
  rw [htf] at hzero hlow hhigh
  exact ⟨hpresent, hid, hcalv, hzero, hlow, hhigh⟩

theorem respond_sameBlock (s : State) (r : Frame) : s.sameBlock (s.respond r) := by
  simp [State.sameBlock]

theorem inv_respond (r : Frame) (hinv : s.Inv) : (s.respond r).Inv := inv_congr (respond_sameBlock s r) hinv

theorem inv_setIdOk (hinv : s.Inv) : s.setIdOk.Inv where
  calPresent := hinv.calPresent
  calNeedsId _ := rfl
  tfNeedsCal := hinv.tfNeedsCal
  tfZero := hinv.tfZero
  tfLow := hinv.tfLow
  tfHigh := hinv.tfHigh

theorem inv_setHalt (hinv : s.Inv) : s.setHalt.Inv where
  calPresent := hinv.calPresent
  calNeedsId := hinv.calNeedsId
  tfNeedsCal := hinv.tfNeedsCal
  tfZero := hinv.tfZero
  tfLow := hinv.tfLow
  tfHigh := hinv.tfHigh

/-- LDCAL's writes, in a block whose identity is checked. -/
theorem inv_calibrate (c : CalibrationSet) (hi : s.flags.idOk = true) (hinv : s.Inv) :
    (s.writeCal c).setCalValid.Inv where
  calPresent := rfl
  calNeedsId _ := hi
  tfNeedsCal _ := rfl
  tfZero := hinv.tfZero
  tfLow := hinv.tfLow
  tfHigh := hinv.tfHigh

/-- CMPT's writes, in a calibrated block, of a value within the bound of R26. -/
theorem inv_carry {v : BitVec 32} (hc : s.flags.calValid = true) (hlow : -4194304 < v.toInt) (hhigh : v.toInt < 4194304)
    (hinv : s.Inv) : (s.writeTFine v).setTfValid.Inv where
  calPresent := by simpa using hinv.calPresent
  calNeedsId := by simpa using hinv.calNeedsId
  tfNeedsCal _ := by simpa using hc
  tfZero h := by simp at h
  tfLow := by simpa using hlow
  tfHigh := by simpa using hhigh

theorem inv_reset : State.reset.Inv where
  calPresent := rfl
  calNeedsId h := nomatch h
  tfNeedsCal h := nomatch h
  tfZero _ := rfl
  tfLow := by decide
  tfHigh := by decide

theorem inv_applyReset (s : State) : s.applyReset.Inv :=
  inv_congr (s := State.reset) ⟨rfl, rfl, rfl⟩ inv_reset

/-! ## What a step can be -/

section
variable {f : Frame} {rest : List HostEvent}

theorem step_of_idle (h : s.inbox = []) : step s = .next s := by rw [step, h]

theorem step_of_reset (h : s.inbox = .reset :: rest) : step s = .next { s with inbox := rest }.applyReset := by
  rw [step, h]
  rfl

/-- A presented frame runs in the state with that frame taken from the queue. -/
theorem step_of_frame (h : s.inbox = .frame f :: rest) : step s = runFrame f { s with inbox := rest } := by
  rw [step, h]
  rfl

/-- A step is idle, resets the block, or runs the frame presented first. -/
theorem step_cases (s : State) : (s.inbox = [] ∧ step s = .next s) ∨
    (∃ rest, s.inbox = .reset :: rest ∧ step s = .next { s with inbox := rest }.applyReset) ∨
    (∃ f rest, s.inbox = .frame f :: rest ∧ step s = runFrame f { s with inbox := rest }) :=
  match h : s.inbox with
  | [] => .inl ⟨rfl, step_of_idle h⟩
  | .reset :: rest => .inr (.inl ⟨rest, rfl, step_of_reset h⟩)
  | .frame f :: rest => .inr (.inr ⟨f, rest, rfl, step_of_frame h⟩)

end

/-! ## Commands, frames and steps keep it -/

theorem raise_keeps_inv {f : BlockFault} (hinv : s.Inv) (h : raise f s = .next t) : t.Inv := by
  obtain rfl := Host.Outcome.next.inj h
  refine inv_respond _ ?_
  cases f with
  | identityMismatch => exact inv_setHalt hinv
  | sequenceError | calibrationLocked | illegalCommand | halted => exact hinv

/-- CMPT keeps it by the bound of R203. -/
theorem exec_keeps_inv {i : Instr} (hinv : s.Inv) (h : exec i s = .next t) : t.Inv := by
  obtain ⟨-, r, -, rfl⟩ | ⟨id, -, rfl | rfl⟩ | ⟨a, b, -, hi, -, rfl⟩ | ⟨adcT, r, -, ⟨-, hc⟩, -, rfl⟩ := exec_outcomes h
  · exact inv_respond r hinv
  · exact inv_respond _ (inv_setIdOk hinv)
  · exact inv_respond _ (inv_setHalt hinv)
  · exact inv_respond _ (inv_calibrate _ hi hinv)
  · obtain ⟨hlow, hhigh⟩ := trunc_tSum_bounds Binary64.ieee_monotoneExact adcT s.calRegs.temp
    exact inv_respond r (inv_carry hc hlow hhigh hinv)

theorem runFrame_keeps_inv {f : Frame} (hinv : s.Inv) (h : runFrame f s = .next t) : t.Inv := by
  obtain ⟨-, he⟩ | ⟨-, -, he⟩ | ⟨-, i, -, he⟩ := runFrame_cases f s
  · exact raise_keeps_inv hinv (he.symm.trans h)
  · exact raise_keeps_inv hinv (he.symm.trans h)
  · exact exec_keeps_inv hinv (he.symm.trans h)

/-- Taking an event from the queue leaves the block as it is. -/
theorem sameBlock_withInbox (s : State) (q : List HostEvent) : s.sameBlock { s with inbox := q } := ⟨rfl, rfl, rfl⟩

theorem step_keeps_inv (hinv : s.Inv) (h : step s = .next t) : t.Inv := by
  obtain ⟨-, he⟩ | ⟨rest, -, he⟩ | ⟨f, rest, -, he⟩ := step_cases s
  · exact Host.Outcome.next.inj (he.symm.trans h) ▸ hinv
  · exact Host.Outcome.next.inj (he.symm.trans h) ▸ inv_applyReset _
  · exact runFrame_keeps_inv (inv_congr (sameBlock_withInbox s rest) hinv) (he.symm.trans h)

end Sys2Proof.Machine

namespace Sys2Proof.Proofs

open Machine

/-- Settles O34: each of the four updates keeps the invariant, CMPT's by the bound of R203, and a reset establishes it. -/
theorem everyStepKeepsTheInvariant : Obligations.EveryStepKeepsTheInvariant := fun _ _ => step_keeps_inv

/-- Settles O33: nothing is present, and `T_FINE` is 0. -/
theorem invariantHoldsAtReset : Obligations.InvariantHoldsAtReset := inv_reset

end Sys2Proof.Proofs
end

section
/-! PROOF. The encoding family, continued: decode and encode are inverse (R81 to R99), and the bytes of a multi-byte value
(R64). -/

namespace Sys2Proof

open Machine

/-! ## Multi-byte values -/

/-- Byte i of a value is its bits 8i+7 to 8i (R64). -/
theorem leBytes_getElem? {n i : ℕ} (h : i < n) (v : ℕ) : (leBytes n v)[i]? = some (BitVec.ofNat 8 (v / 256 ^ i)) := by
  induction n generalizing i v with
  | zero => exact absurd h (Nat.not_lt_zero i)
  | succ n ih =>
    cases i with
    | zero => simp [leBytes]
    | succ i => rw [leBytes, List.getElem?_cons_succ, ih (Nat.lt_of_succ_lt_succ h), Nat.div_div_eq_div_mul, ← Nat.pow_succ']

/-- The 20-bit operand comes back from its three bytes (R93). -/
theorem operand20_leBytes (adc : BitVec 20) :
    operand20 (BitVec.ofNat 8 adc.toNat) (BitVec.ofNat 8 (adc.toNat / 256)) (BitVec.ofNat 8 (adc.toNat / 256 / 256)) =
      some adc := by
  have hlt := adc.isLt
  rw [operand20_eq_some]
  simp only [BitVec.toNat_ofNat]
  omega

/-- The 16-bit operand comes back from its two bytes (R94). -/
theorem operand16_leBytes (adc : BitVec 16) :
    operand16 (BitVec.ofNat 8 adc.toNat) (BitVec.ofNat 8 (adc.toNat / 256)) = adc := by
  have hlt := adc.isLt
  apply BitVec.eq_of_toNat_eq
  rw [operand16_toNat]
  simp only [BitVec.toNat_ofNat]
  omega

/-- The bytes of a 20-bit operand are those it was assembled from. -/
theorem leBytes_operand20 {f1 f2 f3 : Byte} {adc : BitVec 20} (h : operand20 f1 f2 f3 = some adc) :
    leBytes 3 adc.toNat = [f1, f2, f3] := by
  obtain ⟨h3, hv⟩ := operand20_eq_some.1 h
  have h1 := f1.isLt
  have h2 := f2.isLt
  simp only [leBytes_three, List.cons.injEq, and_true, ← BitVec.toNat_inj, BitVec.toNat_ofNat]
  omega

/-- The bytes of a 16-bit operand are those it was assembled from. -/
theorem leBytes_operand16 (f1 f2 : Byte) : leBytes 2 (operand16 f1 f2).toNat = [f1, f2] := by
  have h1 := f1.isLt
  have h2 := f2.isLt
  simp only [leBytes_two, List.cons.injEq, and_true, ← BitVec.toNat_inj, BitVec.toNat_ofNat, operand16_toNat]
  omega

theorem decodeOperands_cmpt {f1 f2 f3 : Byte} {adc : BitVec 20} (h : operand20 f1 f2 f3 = some adc) :
    decodeOperands .cmpt [f1, f2, f3] = .ok (.cmpt adc) := by simp only [decodeOperands, h, Option.elim_some]

theorem decodeOperands_cmpp {f1 f2 f3 : Byte} {adc : BitVec 20} (h : operand20 f1 f2 f3 = some adc) :
    decodeOperands .cmpp [f1, f2, f3] = .ok (.cmpp adc) := by simp only [decodeOperands, h, Option.elim_some]

/-! ## Decoding a frame that was encoded -/

/-- Every well-formed command's payload has the length its opcode leaves it (R81). -/
theorem payload_length {i : Instr} (h : i.wellFormed = true) : i.payload.length + 1 = i.opcode.length :=
  match i with
  | .chkid id => Laws.EncodeLength.chkid id h
  | .ldcal a b => Laws.EncodeLength.ldcal a b h
  | .rdcal k => Laws.EncodeLength.rdcal k h
  | .unpk raw => Laws.EncodeLength.unpk raw h
  | .cmpt adcT => Laws.EncodeLength.cmpt adcT h
  | .cmpp adcP => Laws.EncodeLength.cmpp adcP h
  | .cmph adcH => Laws.EncodeLength.cmph adcH h

/-- A command's payload makes that command. -/
theorem decodeOperands_payload {i : Instr} (h : i.wellFormed = true) : decodeOperands i.opcode i.payload = .ok i := by
  cases i with
  | chkid id => rfl
  | ldcal a b =>
    obtain ⟨ha, -⟩ : a.length = 26 ∧ b.length = 7 := by simpa [Instr.wellFormed] using h
    simp [decodeOperands, Instr.opcode, Instr.payload, ← ha]
  | rdcal k => exact if_pos (of_decide_eq_true h)
  | unpk raw => rfl
  | cmpt adcT => exact decodeOperands_cmpt (operand20_leBytes adcT)
  | cmpp adcP => exact decodeOperands_cmpp (operand20_leBytes adcP)
  | cmph adcH => simp only [decodeOperands, Instr.opcode, Instr.payload, leBytes_two, operand16_leBytes]

theorem decode_encode {i : Instr} (h : i.wellFormed = true) : decode (encode i) = .ok i := by
  rw [encode, decode_of_length (payload_length h), decodeOperands_payload h]

/-! ## Encoding a command that was decoded -/

/-- A payload of its opcode's length that makes a command is that command's payload. -/
theorem encode_of_decodeOperands {o : Opcode} {p : List Byte} {i : Instr} (hlen : p.length + 1 = o.length)
    (h : decodeOperands o p = .ok i) : encode i = o.code :: p := by
  have hnot : ¬ HasReservedOperand o p := fun hr => by simp [decodeOperands_of_reserved hlen hr] at h
  obtain ⟨j, hj, hop⟩ := decodeOperands_of_legal hlen hnot
  obtain rfl : j = i := Except.ok.inj (hj.symm.trans h)
  subst hop
  refine congrArg (j.opcode.code :: ·) ?_
  cases j with
  | chkid id =>
    obtain ⟨b, rfl⟩ := List.length_eq_one_iff.1 (Nat.succ.inj hlen)
    obtain rfl := Instr.chkid.inj (Except.ok.inj h)
    rfl
  | ldcal a b =>
    obtain ⟨rfl, rfl⟩ := Instr.ldcal.inj (Except.ok.inj h)
    exact List.take_append_drop 26 p
  | rdcal k =>
    obtain ⟨b, rfl⟩ := List.length_eq_one_iff.1 (Nat.succ.inj hlen)
    have hk : b.toNat ≤ 17 := Nat.not_lt.1 fun hk => hnot (.inl ⟨rfl, hk⟩)
    obtain rfl := Instr.rdcal.inj (Except.ok.inj ((if_pos hk).symm.trans h))
    rfl
  | unpk raw => exact (Instr.unpk.inj (Except.ok.inj h)).symm
  | cmpt adcT =>
    obtain ⟨f1, f2, f3, rfl⟩ := List.length_eq_three.1 (Nat.succ.inj hlen)
    obtain ⟨adc, hadc⟩ := operand20_of_legal f1 f2 (Nat.not_le.1 fun hn => hnot (.inr ⟨.inl rfl, hn⟩))
    obtain rfl := Instr.cmpt.inj (Except.ok.inj ((decodeOperands_cmpt hadc).symm.trans h))
    exact leBytes_operand20 hadc
  | cmpp adcP =>
    obtain ⟨f1, f2, f3, rfl⟩ := List.length_eq_three.1 (Nat.succ.inj hlen)
    obtain ⟨adc, hadc⟩ := operand20_of_legal f1 f2 (Nat.not_le.1 fun hn => hnot (.inr ⟨.inr rfl, hn⟩))
    obtain rfl := Instr.cmpp.inj (Except.ok.inj ((decodeOperands_cmpp hadc).symm.trans h))
    exact leBytes_operand20 hadc
  | cmph adcH =>
    obtain ⟨f1, f2, rfl⟩ := List.length_eq_two.1 (Nat.succ.inj hlen)
    obtain rfl := Instr.cmph.inj (Except.ok.inj h)
    exact leBytes_operand16 f1 f2

/-- What decodes is an opcode's byte and a payload of its length that makes the command (R98). -/
theorem decode_eq_ok {f : Frame} {i : Instr} (h : decode f = .ok i) :
    ∃ (o : Opcode) (p : List Byte), f = o.code :: p ∧ p.length + 1 = o.length ∧ decodeOperands o p = .ok i := by
  cases f with
  | nil => simp [decode] at h
  | cons f0 p =>
    cases ho : Opcode.ofByte? f0 with
    | none => simp [decode, ho] at h
    | some o =>
      obtain rfl := code_of_ofByte? ho
      by_cases hlen : p.length + 1 = o.length
      · exact ⟨o, p, rfl, hlen, (decode_of_length hlen).symm.trans h⟩
      · simp [decode_of_wrongLength hlen] at h

theorem encode_of_decode {f : Frame} {i : Instr} (h : decode f = .ok i) : encode i = f := by
  obtain ⟨o, p, rfl, hlen, hops⟩ := decode_eq_ok h
  exact encode_of_decodeOperands hlen hops

end Sys2Proof

namespace Sys2Proof.Proofs

/-- Settles O41: the frame has its opcode's length, and each payload makes its command again. -/
theorem decodeOfEncode : Obligations.DecodeOfEncode := fun _ => decode_encode

/-- Settles O42: a payload that passes the checks of R98 is that of the command it makes. -/
theorem encodeOfDecode : Obligations.EncodeOfDecode := fun _ _ h => ⟨wellFormed_of_decode h, encode_of_decode h⟩

/-- Settles O44, by induction on the number of bytes. -/
theorem littleEndianBytes : Obligations.LittleEndianBytes := fun n v _ h => ⟨leBytes_length n v, leBytes_getElem? h v⟩

/-- Settles O40: each frame is that of its command, operand by operand. -/
theorem framesOfTheSpecDecode : Obligations.FramesOfTheSpecDecode := by
  exact ⟨decode_encode (i := .chkid 0x60#8) rfl, decode_encode (i := .rdcal 17#8) rfl, decode_encode (i := .unpk _) rfl,
    decode_encode (i := .cmpt 519888#20) rfl, decode_encode (i := .cmpp 415148#20) rfl,
    decode_encode (i := .cmph 30000#16) rfl⟩

end Sys2Proof.Proofs
end

section
/-! PROOF. Round trips of the extractions: a signed integer and the bytes of its pattern (R121), three counts and the bytes of a
burst (R174). -/

namespace Sys2Proof.Machine

/-! ## Signed integers -/

/-- The conditional subtraction undoes the pattern of a signed integer in range (R10, R121). -/
theorem foldSigned_emod {n : ℕ} (hn : 0 < n) {s : ℤ} (hlow : -2 ^ (n - 1) ≤ s) (hhigh : s < 2 ^ (n - 1)) :
    foldSigned n (s % 2 ^ n).toNat = s := by
  have hpow : (2 : ℤ) ^ n = 2 * 2 ^ (n - 1) := by rw [← pow_succ', Nat.sub_add_cancel hn]
  have hpos : (0 : ℤ) < 2 ^ (n - 1) := by positivity
  have hcast : ((2 ^ (n - 1) : ℕ) : ℤ) = 2 ^ (n - 1) := by push_cast; rfl
  unfold foldSigned
  rw [hpow]
  generalize (2 : ℤ) ^ (n - 1) = m at *
  rcases lt_or_ge s 0 with hneg | hnonneg
  · have hmod : s % (2 * m) = s + 2 * m := by
      rw [← Int.add_emod_right]
      exact Int.emod_eq_of_lt (by omega) (by omega)
    rw [hmod, if_pos (by omega)]
    omega
  · rw [Int.emod_eq_of_lt hnonneg (by omega), if_neg (by omega)]
    omega

/-- A byte made of a number below 256 is that number. -/
theorem toNat_byte {v : ℕ} (h : v < 256) : (BitVec.ofNat 8 v).toNat = v := Nat.mod_eq_of_lt h

theorem extS16LE_roundTrip {s : ℤ} (hlow : -32768 ≤ s) (hhigh : s ≤ 32767) :
    (extS16LE (BitVec.ofNat 8 (s % 65536).toNat) (BitVec.ofNat 8 ((s % 65536).toNat / 256))).toInt = s := by
  have hv : (s % 65536).toNat < 65536 := by omega
  have hbytes : (s % 65536).toNat % 256 + 256 * ((s % 65536).toNat / 256) = (s % 65536).toNat := Nat.mod_add_div _ _
  rw [extS16LE_toInt, toNat_byte (by omega : (s % 65536).toNat / 256 < 256), BitVec.toNat_ofNat]
  exact (congrArg (foldSigned 16) hbytes).trans (foldSigned_emod (by decide) hlow (by omega))

theorem extS8_roundTrip {s : ℤ} (hlow : -128 ≤ s) (hhigh : s ≤ 127) :
    (extS8 (BitVec.ofNat 8 (s % 256).toNat)).toInt = s := by
  rw [extS8_toInt, toNat_byte (by omega)]
  exact foldSigned_emod (by decide) hlow (by omega)

section Twelve
variable {s : ℤ} (hlow : -2048 ≤ s) (hhigh : s ≤ 2047) {other : ℕ} (hother : other < 16)
include hlow hhigh hother

/-- The high nibble of the shared byte is not read. -/
theorem extS12A_roundTrip :
    (extS12A (BitVec.ofNat 8 ((s % 4096).toNat / 16)) (BitVec.ofNat 8 (16 * other + (s % 4096).toNat % 16))).toInt = s := by
  have hv : (s % 4096).toNat < 4096 := by omega
  rw [extS12A_toInt, toNat_byte (by omega), toNat_byte (by omega), Nat.mul_add_mod, Nat.mod_mod, Nat.div_add_mod]
  exact foldSigned_emod (by decide) hlow (by omega)

/-- The low nibble of the shared byte is not read. -/
theorem extS12B_roundTrip :
    (extS12B (BitVec.ofNat 8 (16 * ((s % 4096).toNat % 16) + other)) (BitVec.ofNat 8 ((s % 4096).toNat / 16))).toInt = s := by
  have hv : (s % 4096).toNat < 4096 := by omega
  rw [extS12B_toInt, toNat_byte (by omega), toNat_byte (by omega), Nat.mul_add_div (by decide), Nat.div_eq_of_lt hother,
    Nat.add_zero, Nat.div_add_mod]
  exact foldSigned_emod (by decide) hlow (by omega)

end Twelve

/-! ## Bursts -/

/-- A 20-bit count reads the upper nibble of its last byte alone (R117). -/
theorem extU20BE_congr {b2 b2' : Byte} (h : b2.extractLsb' 4 4 = b2'.extractLsb' 4 4) (b0 b1 : Byte) :
    extU20BE b0 b1 b2 = extU20BE b0 b1 b2' := by
  rw [extU20BE, extU20BE, h]

theorem byteAt_set_same {block : List Byte} {i : ℕ} (h : i < block.length) (v : Byte) :
    byteAt (block.set i v) i = v := by
  simp [byteAt, List.getElem?_set_self h]

/-- The low nibbles of RAW[2] and RAW[5] do not reach the answer (R174). -/
theorem rawSampleBytes_set {raw : List Byte} {v2 v5 : Byte} (hl : raw.length = 8)
    (h2 : v2.extractLsb' 4 4 = (byteAt raw 2).extractLsb' 4 4) (h5 : v5.extractLsb' 4 4 = (byteAt raw 5).extractLsb' 4 4) :
    rawSampleBytes ((raw.set 2 v2).set 5 v5) = rawSampleBytes raw := by
  have hb2 : byteAt ((raw.set 2 v2).set 5 v5) 2 = v2 := by
    rw [byteAt_set_ne _ _ (by decide), byteAt_set_same (by omega)]
  have hb5 : byteAt ((raw.set 2 v2).set 5 v5) 5 = v5 := byteAt_set_same (by rw [List.length_set]; omega) v5
  have hp : unpackP ((raw.set 2 v2).set 5 v5) = unpackP raw := by
    rw [unpackP, hb2, extU20BE_congr h2]
    simp [unpackP, byteAt_set_ne]
  have ht : unpackT ((raw.set 2 v2).set 5 v5) = unpackT raw := by
    rw [unpackT, hb5, extU20BE_congr h5]
    simp [unpackT, byteAt_set_ne]
  have hh : unpackH ((raw.set 2 v2).set 5 v5) = unpackH raw := by simp [unpackH, byteAt_set_ne]
  rw [rawSampleBytes, hp, ht, hh, ← rawSampleBytes]

theorem exec_unpk_set {raw : List Byte} {v2 v5 : Byte} (hl : raw.length = 8)
    (h2 : v2.extractLsb' 4 4 = (byteAt raw 2).extractLsb' 4 4) (h5 : v5.extractLsb' 4 4 = (byteAt raw 5).extractLsb' 4 4)
    (s : State) : exec (.unpk ((raw.set 2 v2).set 5 v5)) s = exec (.unpk raw) s := by
  have hl' : ((raw.set 2 v2).set 5 v5).length = 8 := by rw [List.length_set, List.length_set, hl]
  cases hh : s.flags.halt with
  | true => rw [exec_of_halted _ hh, exec_of_halted _ hh]
  | false => rw [exec_unpk_of_running hl' hh, exec_unpk_of_running hl hh, rawSampleBytes_set hl h2 h5]

/-- The bytes of a 20-bit count, most significant first, the low nibble of the last one 0 (R117). -/
def countBytes (v : BitVec 20) : List Byte :=
  [BitVec.ofNat 8 (v.toNat / 4096), BitVec.ofNat 8 (v.toNat / 16), BitVec.ofNat 8 (16 * (v.toNat % 16))]

theorem extU20BE_countBytes (v : BitVec 20) :
    extU20BE (byteAt (countBytes v) 0) (byteAt (countBytes v) 1) (byteAt (countBytes v) 2) = v := by
  have hv := v.isLt
  apply BitVec.eq_of_toNat_eq
  rw [extU20BE_toNat]
  simp only [countBytes, byteAt, List.getD_cons_zero, List.getD_cons_succ, BitVec.toNat_ofNat]
  omega

theorem extU16BE_bytes (v : BitVec 16) :
    extU16BE (BitVec.ofNat 8 (v.toNat / 256)) (BitVec.ofNat 8 v.toNat) = v := by
  have hv := v.isLt
  apply BitVec.eq_of_toNat_eq
  rw [extU16BE_toNat]
  simp only [BitVec.toNat_ofNat]
  omega

/-- A burst that unpacks to three given counts. -/
def burstOf (p t : BitVec 20) (h : BitVec 16) : List Byte :=
  countBytes p ++ countBytes t ++ [BitVec.ofNat 8 (h.toNat / 256), BitVec.ofNat 8 h.toNat]

end Sys2Proof.Machine

namespace Sys2Proof.Proofs

open Machine

/-- Settles O48: the pattern's bytes hold the pattern, and the conditional subtraction undoes it. -/
theorem extractionRoundTrip : Obligations.ExtractionRoundTrip :=
  ⟨fun _ => extS16LE_roundTrip, fun _ => extS8_roundTrip, fun _ hlow hhigh _ hother =>
    ⟨extS12A_roundTrip hlow hhigh hother, extS12B_roundTrip hlow hhigh hother⟩⟩

/-- Settles O21: a count reads the upper nibble alone, and `burstOf` writes three counts into a burst. -/
theorem unpkIgnoresLowNibblesAndIsOnto : Obligations.UnpkIgnoresLowNibblesAndIsOnto :=
  ⟨fun _ _ _ s hl h2 h5 => exec_unpk_set hl h2 h5 s, fun p t h =>
    ⟨burstOf p t h, rfl, extU20BE_countBytes p, extU20BE_countBytes t, extU16BE_bytes h⟩⟩

end Sys2Proof.Proofs
end

section
/-! PROOF. The step (R30, R70, R244 to R246, R270): what it takes from the queue, and that it never stops. -/

namespace Sys2Proof.Machine

variable {s : State} {f : Frame} {rest : List HostEvent}

theorem runFrame_of_decode {i : Instr} (hd : decode f = .ok i) (s : State) : runFrame f s = exec i s := by
  by_cases hh : s.flags.halt = true
  · rw [runFrame, if_pos hh, exec_of_halted i hh]
  · simp [runFrame, hh, hd]

theorem runFrame_of_illegal {e : DecodeError} (hh : s.flags.halt = false) (hd : decode f = .error e) :
    runFrame f s = .next (s.respond [0x04#8]) := by
  simp [runFrame, hh, hd, raise_eq, BlockFault.code]

/-- Every step answers a next state: a frame has its response, and the other events have no fault (R260, R263). -/
theorem step_next (s : State) : ∃ t, step s = .next t := by
  obtain ⟨-, he⟩ | ⟨rest, -, he⟩ | ⟨f, rest, -, he⟩ := step_cases s
  · exact ⟨_, he⟩
  · exact ⟨_, he⟩
  · obtain ⟨t, -, hrun, -⟩ := runFrame_answersWith f { s with inbox := rest }
    exact ⟨t, he.trans hrun⟩

/-- Running one frame, with the frames still to come before it in the queue or not. -/
theorem step_presented (f : Frame) (q : List HostEvent) {t : State}
    (h : runFrame f { s with inbox := rest } = .next t) :
    step { s with inbox := .frame f :: q } = .next { t with inbox := q } := by
  rw [step_of_frame (f := f) (rest := q) rfl]
  exact (runFrame_inbox f { s with inbox := rest } q).trans (by rw [h, andThen_next])

/-- No frame writes what the host has presented. -/
theorem runFrame_keeps_inbox {t : State} (h : runFrame f s = .next t) : t.inbox = s.inbox := by
  obtain ⟨u, -, hrun, -, hin, -⟩ := runFrame_answersWith f s
  exact Host.Outcome.next.inj (h.symm.trans hrun) ▸ hin

/-- As many steps as frames, by induction on the frames. -/
theorem runSteps_of_runFrames (fs : List Frame) (rest : List HostEvent) (s t : State)
    (h : runFrames fs { s with inbox := rest } = .next t) :
    runSteps fs.length { s with inbox := fs.map .frame ++ rest } = .next t := by
  induction fs generalizing s with
  | nil => exact h
  | cons f fs ih =>
    obtain ⟨u, -, hrun, -⟩ := runFrame_answersWith f { s with inbox := rest }
    have hin : u.inbox = rest := runFrame_keeps_inbox hrun
    have hu : { u with inbox := rest } = u := by rw [← hin]
    rw [runFrames, hrun, andThen_next, ← hu] at h
    rw [List.length_cons, List.map_cons, List.cons_append, runSteps, step_presented f _ hrun, andThen_next]
    exact ih u h

end Sys2Proof.Machine

namespace Sys2Proof.Proofs

open Machine

/-- Settles O2: the reset event is taken, and the block's state is that of R35. -/
theorem resetEventGivesResetState : Obligations.ResetEventGivesResetState := fun s rest h =>
  ⟨_, step_of_reset h, applyReset_cal _, applyReset_tFine _, applyReset_flags _, applyReset_outbox { s with inbox := rest }⟩

/-- Settles O3. -/
theorem idleBlockKeepsItsState : Obligations.IdleBlockKeepsItsState := fun _ => step_of_idle

/-- Settles O4: a frame that decodes runs its command, halted or not. -/
theorem stepRunsTheDecodedCommand : Obligations.StepRunsTheDecodedCommand := fun _ _ _ _ h hd =>
  (step_of_frame h).trans (runFrame_of_decode hd _)

/-- Settles O5: the frame is taken and refused with IllegalCommand. -/
theorem stepAnswersIllegalCommand : Obligations.StepAnswersIllegalCommand := fun _ _ _ _ h hh hd =>
  (step_of_frame h).trans (runFrame_of_illegal hh hd)

/-- Settles O6: the frame is taken and refused with Halted, before decode. -/
theorem haltedOutranksDecode : Obligations.HaltedOutranksDecode := fun _ f _ h hh =>
  (step_of_frame h).trans (runFrame_of_halted f hh)

/-- Settles O7: the three kinds of step each have a next state. -/
theorem stepNeverStops : Obligations.StepNeverStops := step_next

/-- Settles O8, by induction on the frames: a frame does not read the queue, so each step is its frame's run. -/
theorem runIsTheFoldOfTheFrames : Obligations.RunIsTheFoldOfTheFrames := runSteps_of_runFrames

end Sys2Proof.Proofs
end


section
/-! PROOF. What each command leaves unchanged (R22, R25, R27), the length of its OK response (R91), what it answers again (R66),
and what lasts from one command to the next (R34, R37 (f)). -/

namespace Sys2Proof.Machine

variable {i : Instr} {s t : State}

/-- The one response that an update of the block adds. -/
theorem eq_of_respond_outbox {u : State} {r r' : Frame} (hu : u.outbox = s.outbox)
    (h : (u.respond r').outbox = s.outbox ++ [r]) : r = r' := by
  rw [respond_outbox, hu] at h
  exact (List.singleton_inj.1 (List.append_cancel_left h)).symm

/-- An OK response has the length of its command's row (R91). -/
theorem length_of_ok_response {r : Frame} (h : exec i s = .next t) (ht : t.outbox = s.outbox ++ [r])
    (hr : r.head? = some 0x00#8) : r.length = okLength i := by
  obtain ⟨-, r', hlen, rfl⟩ | ⟨id, rfl, rfl | rfl⟩ | ⟨a, b, rfl, -, -, rfl⟩ | ⟨adcT, r', rfl, -, hlen, rfl⟩ := exec_outcomes h
  · obtain rfl := eq_of_respond_outbox rfl ht
    exact hlen hr
  · obtain rfl := eq_of_respond_outbox rfl ht
    rfl
  · obtain rfl := eq_of_respond_outbox rfl ht
    simp at hr
  · obtain rfl := eq_of_respond_outbox rfl ht
    rfl
  · rw [eq_of_respond_outbox (by simp) ht, hlen]
    rfl

/-! ## Flags and registers -/

theorem Flags.le_refl (f : Flags) : f.le f := ⟨id, id, id, id⟩

/-- No fault clears a flag. -/
theorem raise_flags_le {f : BlockFault} (h : raise f s = .next t) : s.flags.le t.flags := by
  obtain rfl := Host.Outcome.next.inj h
  cases f with
  | identityMismatch => exact ⟨id, id, id, fun _ => rfl⟩
  | sequenceError | calibrationLocked | illegalCommand | halted => exact Flags.le_refl _

/-- Every update of a flag sets it. -/
theorem exec_flags_le (h : exec i s = .next t) : s.flags.le t.flags := by
  obtain ⟨-, r, -, rfl⟩ | ⟨id, -, rfl | rfl⟩ | ⟨a, b, -, -, -, rfl⟩ | ⟨adcT, r, -, -, -, rfl⟩ := exec_outcomes h <;>
    simp [Flags.le]

theorem runFrame_flags_le {f : Frame} (h : runFrame f s = .next t) : s.flags.le t.flags := by
  obtain ⟨-, he⟩ | ⟨-, -, he⟩ | ⟨-, i, -, he⟩ := runFrame_cases f s
  · exact raise_flags_le (he.symm.trans h)
  · exact raise_flags_le (he.symm.trans h)
  · exact exec_flags_le (he.symm.trans h)

/-! ## Repetition -/

/-- CMPT's writes done twice are done once. -/
theorem carry_idempotent (s : State) (v : BitVec 32) (r r' : Frame) :
    (((s.writeTFine v).setTfValid.respond r).writeTFine v).setTfValid.respond r' =
      ((s.writeTFine v).setTfValid.respond r).respond r' := (rfl)

theorem carry_outbox (s : State) (v : BitVec 32) (r : Frame) :
    ((s.writeTFine v).setTfValid.respond r).outbox = s.outbox ++ [r] := (rfl)

/-- CMPT answers from the flags and the temperature coefficients, which it does not write. -/
theorem exec_cmpt_repeats {adcT : BitVec 20} (hready : s.ready) (h : exec (.cmpt adcT) s = .next t) :
    ∃ r, t.outbox = s.outbox ++ [r] ∧ exec (.cmpt adcT) t = .next (t.respond r) := by
  obtain ⟨hh, hc⟩ := hready
  rw [exec_cmpt_of_ready adcT hh hc, Host.Outcome.next.injEq] at h
  subst h
  refine ⟨_, carry_outbox s _ _, ?_⟩
  rw [exec_cmpt_of_ready adcT (by simpa using hh) (by simpa using hc), calRegs_respond, calRegs_setTfValid,
    calRegs_writeTFine, carry_idempotent]

/-! ## The carry -/

/-- The carry is a matter of `CAL`, `T_FINE` and TF_VALID. -/
theorem carries_congr {adcT : BitVec 20} (hcal : s.cal = t.cal) (htf : s.tFine = t.tFine)
    (hvalid : s.flags.tfValid = t.flags.tfValid) (h : s.carries adcT) : t.carries adcT := by
  obtain ⟨hv, ht⟩ := h
  exact ⟨hvalid ▸ hv, by rw [← htf, ht, calRegs_congr hcal]⟩

theorem carries_of_cmpt {adcT : BitVec 20} (hready : s.ready) (h : exec (.cmpt adcT) s = .next t) : t.carries adcT := by
  obtain ⟨r, -, rfl⟩ := exec_cmpt_next hready h
  refine ⟨by simp, ?_⟩
  rw [respond_tFine, setTfValid_tFine, writeTFine_tFine, calRegs_respond, calRegs_setTfValid, calRegs_writeTFine]

/-- Only LDCAL writes the coefficients, and not in a block that carries a count: there TF_VALID implies CAL_VALID. -/
theorem exec_keeps_carry {adcT : BitVec 20} (hinv : s.Inv) (hcarry : s.carries adcT) (hi : ∀ a, i ≠ .cmpt a)
    (h : exec i s = .next t) : t.carries adcT := by
  have hvalid : s.flags.calValid = true := hinv.tfNeedsCal hcarry.1
  obtain ⟨-, r, -, rfl⟩ | ⟨id, -, rfl | rfl⟩ | ⟨a, b, -, -, hc, -⟩ | ⟨a, r, hcmpt, -⟩ := exec_outcomes h
  · exact carries_congr rfl rfl rfl hcarry
  · exact carries_congr rfl rfl rfl hcarry
  · exact carries_congr rfl rfl rfl hcarry
  · simp [hvalid] at hc
  · exact absurd hcmpt (hi a)

end Sys2Proof.Machine

namespace Sys2Proof.Proofs

open Machine

/-- Settles O10: the length is that of the payload, command by command. -/
theorem okResponseLengths : Obligations.OkResponseLengths := fun _ _ _ _ => length_of_ok_response

/-- Settles O32: the updates of CHKID, LDCAL and CMPT write the fields their names say. -/
theorem commandFrames : Obligations.CommandFrames := by
  intro i s t h
  obtain ⟨-, r, -, rfl⟩ | ⟨id, rfl, rfl | rfl⟩ | ⟨a, b, rfl, -, -, rfl⟩ | ⟨adcT, r, rfl, -, -, rfl⟩ := exec_outcomes h
  · refine ⟨rfl, ⟨r, rfl⟩, ?_⟩
    cases i with
    | chkid | ldcal | cmpt => simp
    | rdcal | unpk | cmpp | cmph => exact respond_sameBlock s r
  all_goals simp

/-- Settles O35: a step that is not a reset is idle or runs a frame; no frame clears a flag or writes a calibrated block's
registers. -/
theorem onlyResetClearsAFlag : Obligations.OnlyResetClearsAFlag := by
  intro s t h hreset
  obtain ⟨-, he⟩ | ⟨rest, hin, -⟩ | ⟨f, rest, -, he⟩ := step_cases s
  · obtain rfl := Host.Outcome.next.inj (he.symm.trans h)
    exact ⟨Flags.le_refl _, fun _ => rfl⟩
  · exact absurd hin (hreset rest)
  · have hrun : runFrame f { s with inbox := rest } = .next t := he.symm.trans h
    exact ⟨runFrame_flags_le (s := { s with inbox := rest }) hrun,
      fun hc => (runFrame_keeps_cal (s := { s with inbox := rest }) hc hrun).1⟩

/-- Settles O36: such a command writes nothing its answer depends on. -/
theorem repeatedCommandAnswersAlike : Obligations.RepeatedCommandAnswersAlike := by
  rintro i s t ⟨hchkid, hldcal⟩ h
  obtain ⟨⟨r, -, hu⟩, -⟩ | ⟨id, rfl, -⟩ | ⟨a, b, rfl, -⟩ | ⟨adcT, -, rfl, hready, -⟩ := exec_outcomes h
  · obtain rfl := Host.Outcome.next.inj ((hu s ⟨rfl, rfl, rfl⟩).symm.trans h)
    exact ⟨r, respond_outbox s r, hu _ (respond_sameBlock s r)⟩
  · exact absurd rfl hchkid
  · exact absurd rfl hldcal
  · exact exec_cmpt_repeats hready h

/-- Settles O37: CMPT writes the carry of its count, and no other command writes what the carry depends on. -/
theorem carryLastsUntilTheNextCmpt : Obligations.CarryLastsUntilTheNextCmpt :=
  ⟨fun _ _ _ => carries_of_cmpt, fun _ _ _ _ => exec_keeps_carry⟩

/-- Settles O19: the payload is the word of the coefficient that the index names. -/
theorem rdcalCompletes : Obligations.RdcalCompletes := by
  rintro k s ⟨hh, hc⟩ hk
  obtain ⟨x, hx⟩ := coeffAt_isSome hk
  exact ⟨_, _, exec_rdcal_of_ready hx hh hc, respond_eq s _, word32Bytes_length _⟩

end Sys2Proof.Proofs
end

section
/-! PROOF. The pseudo-commands INIT (R101) and CYCLE (R102, R232), frame by frame; and CMPT's sum as the rules write it (R203). -/

namespace Sys2Proof.Machine

variable {s : State}

/-- The frame of a well-formed command runs the command. -/
theorem runFrame_of_encode {i : Instr} (h : i.wellFormed = true) : runFrame (encode i) s = exec i s :=
  runFrame_encode (decode_encode h)

/-- A state whose latest response is an OK. -/
theorem answeredOk_respond (s : State) (p : List Byte) : (s.respond (0x00#8 :: p)).answeredOk = true := by
  rw [State.answeredOk, lastResponse_respond]
  rfl

/-! ## INIT -/

/-- CHKID sets ID_OK, and LDCAL then passes its checks. -/
theorem runInit_of_match {a b : List Byte} (ha : a.length = 26) (hb : b.length = 7) (hh : s.flags.halt = false)
    (hc : s.flags.calValid = false) : runInit Config.expectedId a b s =
      .next (((s.setIdOk.respond [0x00#8]).writeCal (decodeBlocks a b)).setCalValid.respond [0x00#8]) := by
  have hwf : (Instr.ldcal a b).wellFormed = true := by simp [Instr.wellFormed, ha, hb]
  rw [runInit, runFrame_of_encode rfl, exec_chkid_of_match hh, andThen_next, answeredOk_respond, if_pos rfl,
    runFrame_of_encode hwf, exec_ldcal_of_checked (s := s.setIdOk.respond _) ha hb hh rfl hc]

/-- CHKID sets HALT, and no LDCAL is presented. -/
theorem runInit_of_mismatch {id : Byte} (a b : List Byte) (hh : s.flags.halt = false) (hid : id ≠ Config.expectedId) :
    runInit id a b s = .next (s.setHalt.respond [0x01#8]) := by
  have hfault : (s.setHalt.respond [0x01#8]).answeredOk = false := by
    rw [State.answeredOk, lastResponse_respond]
    rfl
  rw [runInit, runFrame_of_encode rfl, exec_chkid_of_mismatch hh hid, andThen_next, hfault, if_neg Bool.false_ne_true]

/-! ## CYCLE -/

/-- The frames that follow UNPK, in a block that has its response and is ready. -/
theorem runFrames_compensate {s : State} (hh : s.flags.halt = false) (hc : s.flags.calValid = true) (adcT adcP : BitVec 20)
    (adcH : BitVec 16) : runFrames [encode (.cmpt adcT), encode (.cmpp adcP), encode (.cmph adcH)] s =
      let sum := tSum .ieee adcT s.calRegs.temp
      let tf := sum.trunc
      .next ((((s.writeTFine tf).setTfValid.respond
          (0x00#8 :: (f64Bytes (sum.div (lit .ieee 5120)) ++ word32Bytes tf))).respond
        (0x00#8 :: f64Bytes (defaultPFormula .ieee Config.nanBits adcP s.calRegs.press tf))).respond
        (0x00#8 :: f64Bytes (clampHumidity .ieee (defaultHFormula .ieee adcH s.calRegs.hum tf)))) := by
  dsimp only
  generalize hsum : tSum .ieee adcT s.calRegs.temp = sum
  rw [runFrames, runFrame_of_encode rfl, exec_cmpt_of_ready adcT hh hc, andThen_next, hsum,
    runFrames, runFrame_of_encode rfl, exec_cmpp_of_ready adcP (by simpa using hh) (by simpa using hc), andThen_next,
    runFrames, runFrame_of_encode rfl, exec_cmph_of_ready adcH (by simpa using hh) (by simpa using hc), andThen_next,
    runFrames]
  simp only [respond_tFine, setTfValid_tFine, writeTFine_tFine, calRegs_respond, calRegs_setTfValid, calRegs_writeTFine]

/-- The four responses of a cycle and CMPT's writes, written out. -/
theorem cycle_eq (s : State) (v : BitVec 32) (r1 r2 r3 r4 : Frame) :
    ((((s.respond r1).writeTFine v).setTfValid.respond r2).respond r3).respond r4 =
      { s with tFine := v, flags := { s.flags with tfValid := true }, outbox := s.outbox ++ [r1, r2, r3, r4] } := by
  simp [respond_eq, State.writeTFine, State.setTfValid]

theorem runCycle_of_running {raw : List Byte} (hl : raw.length = 8) (hh : s.flags.halt = false) : runCycle raw s =
      runFrames [encode (.cmpt (unpackT raw)), encode (.cmpp (unpackP raw)), encode (.cmph (unpackH raw))]
        (s.respond (0x00#8 :: rawSampleBytes raw)) := by
  have hwf : (Instr.unpk raw).wellFormed = true := by simp [Instr.wellFormed, hl]
  rw [runCycle, runFrame_of_encode hwf, exec_unpk_of_running hl hh, andThen_next, answeredOk_respond, if_pos rfl,
    lastResponse_respond, cycleFrames_rawSample]

end Sys2Proof.Machine

namespace Sys2Proof.Proofs

open Machine F64

/-- Settles O38: the two expansions, with their updates written out. -/
theorem initChecksThenCalibrates : Obligations.InitChecksThenCalibrates := by
  refine fun id a b s ha hb hh hc => ⟨?_, fun hid => runInit_of_mismatch a b hh hid⟩
  rintro rfl
  rw [runInit_of_match ha hb hh hc, calibrate_eq]
  simp [respond_eq, State.setIdOk]

/-- Settles O39: UNPK answers the counts, and the three frames made of its response compute with the `T_FINE` that the first of
them writes. -/
theorem cycleIsAFunctionOfTheBurst : Obligations.CycleIsAFunctionOfTheBurst := by
  rintro raw s hl ⟨hh, hc⟩
  dsimp only
  rw [runCycle_of_running hl hh, runFrames_compensate (by simpa using hh) (by simpa using hc)]
  dsimp only
  rw [cycle_eq]
  simp only [rawSampleBytes, calRegs_respond, f64Bytes_eq, word32Bytes_eq_leBytes, lit_ieee, Nat.cast_ofNat]

/-- Settles O23: the sum and the temperature by their bounds, `T_FINE` by the truncation of R187. -/
theorem temperatureFineIsBounded : Obligations.TemperatureFineIsBounded := by
  intro adcT s t hready h
  have hM := Binary64.ieee_monotoneExact
  have hsum := within_tSum hM adcT s.calRegs.temp
  have hlt := abs_tSum_lt hM adcT s.calRegs.temp
  obtain ⟨hlow, hhigh⟩ := trunc_tSum_bounds hM adcT s.calRegs.temp
  obtain ⟨hfin, habs⟩ := within_div_lit hM hsum (n := 5120) (c := 209715 / 2 ^ 8) (by norm_num) (by norm_num)
    (attained_natCast_div (n := 209715) (by norm_num) (by norm_num)) (by norm_num)
  rw [lit_ieee, ieee_div, Nat.cast_ofNat] at hfin habs
  obtain ⟨r, -, rfl⟩ := exec_cmpt_next hready h
  rw [respond_tFine, setTfValid_tFine, writeTFine_tFine]
  exact ⟨hlow, hhigh, _, tSum_ieee adcT _, hsum.1, hlt, hfin, habs.trans_lt (by norm_num),
    truncationIsTowardZero _ hsum.1 (hlt.trans (by norm_num))⟩

end Sys2Proof.Proofs
end

section
/-! PROOF. The one rounding (R181, R189): to the nearest value, ties to an even last bit, and to an infinity from the overflow
bound on. -/

namespace Sys2Proof.F64

set_option exponentiation.threshold 4096

/-! ## Overflow -/

/-- The overflow bound in units: half a last place above the greatest finite magnitude, `(2^53 - 1) * 2^2045`. -/
def overflowUnits : ℕ := (2 ^ 54 - 1) * 2 ^ 2044

theorem overflowBound_eq : overflowBound = (overflowUnits : ℚ) / unitsPerOne := by
  have hsplit : (2 : ℚ) ^ 2044 = 2 ^ 970 * 2 ^ 1074 := by rw [← pow_add]
  rw [overflowBound, overflowUnits, unitsPerOne, Nat.cast_mul, Nat.cast_pow, Nat.cast_pow, Nat.cast_ofNat, hsplit,
    ← mul_assoc, mul_div_cancel_right₀ _ (by positivity)]
  push_cast
  ring

section
variable {num den t q r : ℕ}

/-- The place 2^2045 of the greatest finite values: the rounded pattern is finite exactly below half a place under 2^53. -/
theorem Split.lt_inf_iff_of_greatest (h : Split num den 2045 q r) :
    2045 * 2 ^ 52 + (q + roundUp (den * 2 ^ 2045) q r) < infPattern ↔ num < overflowUnits * den := by
  obtain ⟨hplace, hrem, hq, -⟩ := h
  have hD : den * 2 ^ 2045 = 2 * (2 ^ 2044 * den) := by rw [pow_succ]; ring
  rw [overflowUnits, mul_assoc, infPattern, roundUp]
  rw [hD] at hplace hrem ⊢
  generalize 2 ^ 2044 * den = D at *
  obtain hlt | rfl : q < 2 ^ 53 - 1 ∨ q = 2 ^ 53 - 1 := by omega
  · have hnum : num < (2 ^ 54 - 1) * D := by
      have := Nat.mul_le_mul_right (2 * D) (Nat.succ_le_of_lt hlt)
      rw [Nat.succ_mul] at this
      omega
    have hup := roundUp_le (2 * D) q r
    unfold roundUp at hup
    exact ⟨fun _ => hnum, fun _ => by omega⟩
  · split <;> omega

/-- The rounded pattern is that of a finite value exactly below the overflow bound (R189). -/
theorem roundPattern_lt_inf_iff (hd : 0 < den) : roundPattern num den < infPattern ↔ num < overflowUnits * den := by
  obtain ⟨t, q, r, hs, he⟩ := roundPattern_split num hd
  rw [he]
  obtain ht | rfl | ht : t ≤ 2044 ∨ t = 2045 ∨ 2046 ≤ t := by omega
  · have hup := roundUp_le (den * 2 ^ t) q r
    have hq := hs.q_lt
    have hfinite : t * 2 ^ 52 + (q + roundUp (den * 2 ^ t) q r) < infPattern := by rw [infPattern]; omega
    refine iff_of_true hfinite ?_
    calc num = q * (den * 2 ^ t) + r := hs.place_eq
      _ < (q + 1) * (den * 2 ^ t) := by rw [Nat.succ_mul]; exact Nat.add_lt_add_left hs.rem_lt _
      _ ≤ (2 ^ 54 - 1) * (den * 2 ^ 2044) :=
        Nat.mul_le_mul (by omega) (Nat.mul_le_mul_left _ (Nat.pow_le_pow_right (by norm_num) ht))
      _ = overflowUnits * den := by rw [overflowUnits]; ring
  · exact hs.lt_inf_iff_of_greatest
  · have hq : 2 ^ 52 ≤ q := hs.normal.resolve_left (by omega)
    refine iff_of_false (by rw [infPattern]; omega) (Nat.not_lt.2 ?_)
    calc overflowUnits * den = (2 ^ 54 - 1) * (2 ^ 2044 * den) := by rw [overflowUnits, mul_assoc]
      _ ≤ 2 ^ 54 * (2 ^ 2044 * den) := Nat.mul_le_mul_right _ (by norm_num)
      _ = 2 ^ 52 * (den * 2 ^ 2046) := by rw [pow_add 2 2044 2]; ring
      _ ≤ q * (den * 2 ^ t) := Nat.mul_le_mul hq (Nat.mul_le_mul_left _ (Nat.pow_le_pow_right (by norm_num) ht))
      _ ≤ num := by rw [hs.place_eq]; exact Nat.le_add_right _ _

/-! ## Nearest, ties to even -/

/-- The remainder as a fraction of the place tells which way the quotient is rounded. -/
theorem roundUp_cases (hden : 0 < den) (q r : ℕ) :
    roundUp den q r = 0 ∧ ((r : ℚ) / den < 1 / 2 ∨ (r : ℚ) / den = 1 / 2 ∧ q % 2 = 0) ∨
      roundUp den q r = 1 ∧ ((1 : ℚ) / 2 < r / den ∨ (r : ℚ) / den = 1 / 2 ∧ q % 2 = 1) := by
  have hpos : (0 : ℚ) < den := by exact_mod_cast hden
  have hbelow : (r : ℚ) / den < 1 / 2 ↔ 2 * r < den := by
    rw [div_lt_div_iff₀ hpos (by norm_num), one_mul, mul_comm]
    exact_mod_cast Iff.rfl
  have habove : (1 : ℚ) / 2 < r / den ↔ den < 2 * r := by
    rw [div_lt_div_iff₀ (by norm_num) hpos, one_mul, mul_comm]
    exact_mod_cast Iff.rfl
  have htie : (r : ℚ) / den = 1 / 2 ↔ 2 * r = den := by
    rw [div_eq_div_iff hpos.ne' (by norm_num), one_mul, mul_comm]
    exact_mod_cast Iff.rfl
  rw [hbelow, habove, htie, roundUp]
  split
  case isTrue h => exact .inr ⟨rfl, h⟩
  case isFalse h => exact .inl ⟨rfl, by omega⟩

/-- Rounding a quotient up above half a place, or at half a place when it is odd, gives the nearest whole number of places, and an
even one when another is as near. -/
theorem roundUp_nearest (hrem : r < den) (q k : ℕ) :
    |((q + roundUp den q r : ℕ) : ℚ) - (q + r / den)| ≤ |(k : ℚ) - (q + r / den)| ∧
      (k ≠ q + roundUp den q r → |(k : ℚ) - (q + r / den)| = |((q + roundUp den q r : ℕ) : ℚ) - (q + r / den)| →
        (q + roundUp den q r) % 2 = 0) := by
  have hden : 0 < den := Nat.zero_lt_of_lt hrem
  have hlt : (r : ℚ) / den < 1 := by rw [div_lt_one (by exact_mod_cast hden)]; exact_mod_cast hrem
  have hnonneg : (0 : ℚ) ≤ (r : ℚ) / den := by positivity
  have hcases := roundUp_cases hden q r
  generalize (r : ℚ) / den = a at *
  have hdown : |(q : ℚ) - (q + a)| = a := by rw [sub_add_cancel_left, abs_neg, abs_of_nonneg hnonneg]
  have hup : |((q + 1 : ℕ) : ℚ) - (q + a)| = 1 - a := by
    rw [Nat.cast_succ, add_sub_add_left_eq_sub, abs_of_nonneg (by linarith)]
  have hfar : k = q ∨ k = q + 1 ∨ 1 ≤ |(k : ℚ) - (q + a)| := by
    obtain h | h | h | h : k = q ∨ k = q + 1 ∨ k + 1 ≤ q ∨ q + 2 ≤ k := by omega
    · exact .inl h
    · exact .inr (.inl h)
    · have h' : (k : ℚ) + 1 ≤ q := by exact_mod_cast h
      exact .inr (.inr (le_abs.2 (.inr (by linarith))))
    · have h' : (q : ℚ) + 2 ≤ k := by exact_mod_cast h
      exact .inr (.inr (le_abs.2 (.inl (by linarith))))
  obtain ⟨hu, ha⟩ | ⟨hu, ha⟩ := hcases
  · have hhalf : a ≤ 1 / 2 := ha.elim le_of_lt fun h => h.1.le
    rw [hu, Nat.add_zero, hdown]
    obtain rfl | rfl | hk := hfar
    · exact ⟨hdown.ge, fun hne => absurd rfl hne⟩
    · rw [hup]
      exact ⟨by linarith, fun _ heq => ha.elim (fun h => by linarith) fun h => h.2⟩
    · exact ⟨by linarith, fun _ heq => by linarith⟩
  · have hhalf : 1 / 2 ≤ a := ha.elim le_of_lt fun h => h.1.ge
    rw [hu, hup]
    obtain rfl | rfl | hk := hfar
    · rw [hdown]
      exact ⟨by linarith, fun _ heq => ha.elim (fun h => by linarith) fun h => by omega⟩
    · exact ⟨hup.ge, fun hne => absurd rfl hne⟩
    · exact ⟨by linarith, fun _ heq => by linarith⟩

/-- The rounded magnitude is as near to num/den as every representable one; when another is as near, the pattern is even. -/
theorem roundPattern_nearest {m : ℕ} (hd : 0 < den) (hm : Representable m) :
    |(patternMagnitude (roundPattern num den) : ℚ) - num / den| ≤ |(m : ℚ) - num / den| ∧
      (m ≠ patternMagnitude (roundPattern num den) →
        |(m : ℚ) - num / den| = |(patternMagnitude (roundPattern num den) : ℚ) - num / den| →
          roundPattern num den % 2 = 0) := by
  obtain ⟨t, q, r, hs, he⟩ := roundPattern_split num hd
  rw [he, patternMagnitude_round hs]
  have hden : (den : ℚ) ≠ 0 := by exact_mod_cast hd.ne'
  have hpow : (0 : ℚ) < 2 ^ t := by positivity
  have hquot : (num : ℚ) / den = (q + r / (den * 2 ^ t : ℕ)) * 2 ^ t := by
    rw [hs.place_eq]
    push_cast
    field_simp
  have hscale (k : ℕ) : |((k * 2 ^ t : ℕ) : ℚ) - num / den| = |(k : ℚ) - (q + r / (den * 2 ^ t : ℕ))| * 2 ^ t := by
    rw [hquot, Nat.cast_mul, Nat.cast_pow, Nat.cast_ofNat, ← sub_mul, abs_mul, abs_of_pos hpow]
  have hpattern : (t * 2 ^ 52 + (q + roundUp (den * 2 ^ t) q r)) % 2 = (q + roundUp (den * 2 ^ t) q r) % 2 := by omega
  rw [hpattern, hscale]
  obtain ⟨k, rfl⟩ | ⟨ht, hlt⟩ := representable_place hm t
  · obtain ⟨hnear, htie⟩ := roundUp_nearest hs.rem_lt q k
    rw [hscale]
    refine ⟨mul_le_mul_of_nonneg_right hnear hpow.le, fun hne heq => htie ?_ (mul_right_cancel₀ hpow.ne' heq)⟩
    exact fun h => hne (by rw [h])
  · have hq : 2 ^ 52 ≤ q := hs.normal.resolve_left ht.ne'
    have hmq : (m : ℚ) < (q * 2 ^ t : ℕ) := by exact_mod_cast hlt.trans_le (Nat.mul_le_mul_right _ hq)
    have hqnum : q * 2 ^ t * den ≤ num := by
      rw [hs.place_eq, mul_right_comm, mul_assoc]
      exact Nat.le_add_right _ _
    have hqle : ((q * 2 ^ t : ℕ) : ℚ) ≤ num / den := by
      rw [le_div_iff₀ (by exact_mod_cast hd)]
      exact_mod_cast hqnum
    have hfar :
        |((q + roundUp (den * 2 ^ t) q r : ℕ) : ℚ) - (q + r / (den * 2 ^ t : ℕ))| * 2 ^ t < |(m : ℚ) - num / den| := by
      refine (mul_le_mul_of_nonneg_right (roundUp_nearest hs.rem_lt q q).1 hpow.le).trans_lt ?_
      rw [← hscale, abs_sub_comm, abs_sub_comm (m : ℚ), abs_of_nonneg (by linarith), abs_of_nonneg (by linarith)]
      linarith
    exact ⟨hfar.le, fun _ heq => absurd heq hfar.ne'⟩

end

end Sys2Proof.F64
end

section
/-! PROOF. The four operations on finite values are the exact result rounded once, with its sign, or an infinity from the overflow
bound on (R181, R183 to R185, R189). -/

namespace Sys2Proof.F64

set_option exponentiation.threshold 4096

variable {x y : F64}

/-! ## One rounding, as a real number -/

section Rounding
variable {neg : Bool} {num den : ℕ} {e : ℚ}

theorem zero_value (neg : Bool) : (zero neg).value = 0 := by rw [value_eq, zero_magnitude]; simp

theorem abs_signed (neg : Bool) {a : ℚ} (ha : 0 ≤ a) : |(if neg then -1 else 1) * a| = a := by
  cases neg <;> simp [abs_of_nonneg ha]

/-- Below the overflow bound the rounded value has the rounded pattern, that of a finite value. -/
theorem round_eq_ofPattern (neg : Bool) (hd : 0 < den) (hlt : num < overflowUnits * den) :
    roundPattern num den < infPattern ∧ round neg num den = ofPattern neg (roundPattern num den) := by
  have hinf : roundPattern num den < infPattern := (roundPattern_lt_inf_iff hd).2 hlt
  exact ⟨hinf, by rw [round, Nat.min_eq_left hinf.le]⟩

theorem infPattern_lt : infPattern < 2 ^ 63 := by decide

/-- Its value is the rounded magnitude with the sign. -/
theorem round_value (hd : 0 < den) (hlt : num < overflowUnits * den) : (round neg num den).isFinite = true ∧
    (round neg num den).value = (if neg then -1 else 1) * ((patternMagnitude (roundPattern num den) : ℚ) / unitsPerOne) := by
  obtain ⟨hinf, hround⟩ := round_eq_ofPattern neg hd hlt
  refine ⟨hround ▸ isFinite_ofPattern hinf, ?_⟩
  rw [value_eq, sign_round, hround, magnitude_ofPattern (hinf.trans infPattern_lt), mul_div_assoc]

/-- Its last fraction bit is that of the pattern. -/
theorem fraction_round (hd : 0 < den) (hlt : num < overflowUnits * den) :
    (round neg num den).fraction % 2 = roundPattern num den % 2 := by
  obtain ⟨hinf, hround⟩ := round_eq_ofPattern neg hd hlt
  rw [hround, fraction_ofPattern (hinf.trans infPattern_lt)]
  omega

/-- The distance of two numbers of one sign is that of their magnitudes. -/
theorem abs_signed_sub (neg : Bool) (a b : ℚ) :
    |(if neg then -1 else 1) * a - (if neg then -1 else 1) * b| = |a - b| := by
  rw [← mul_sub, abs_mul]
  cases neg <;> simp

/-- A number of the rounded magnitude that is as near to the exact result as the rounded one is that one: the other sign is
farther, unless the magnitude is 0. -/
theorem eq_of_equidistant {z r e : ℚ} (habs : |z| = |r|) (hsign : 0 ≤ r * e) (hzero : e = 0 → r = 0)
    (heq : |z - e| = |r - e|) : z = r := by
  obtain h | h := abs_eq_abs.1 habs
  · exact h
  · have hsq : (z - e) ^ 2 = (r - e) ^ 2 := sq_eq_sq_iff_abs_eq_abs _ _ |>.2 heq
    have hprod : r * e = 0 := by
      rw [h] at hsq
      linarith
    have hr : r = 0 := (mul_eq_zero.1 hprod).elim id hzero
    rw [h, hr, neg_zero]

/-- Below the overflow bound the rounding of R181. -/
theorem round_isRounded (hd : 0 < den) (he : e = (if neg then -1 else 1) * ((num : ℚ) / den / unitsPerOne))
    (hlt : num < overflowUnits * den) : IsRounded e (round neg num den) := by
  obtain ⟨hfin, hval⟩ := round_value (neg := neg) hd hlt
  have hU := unitsPerOne_pos'
  have hE : (0 : ℚ) ≤ (num : ℚ) / den / unitsPerOne := by positivity
  have hself : |(round neg num den).value - e| =
      |(patternMagnitude (roundPattern num den) : ℚ) - num / den| / unitsPerOne := by
    rw [hval, he, abs_signed_sub, ← sub_div, abs_div, abs_of_pos hU]
  have hother (z : F64) : |(z.magnitude : ℚ) - num / den| / unitsPerOne ≤ |z.value - e| := by
    have h := abs_abs_sub_abs_le z.value e
    rwa [abs_value, he, abs_signed neg hE, ← he, ← sub_div, abs_div, abs_of_pos hU] at h
  have hnear (z : F64) : |(round neg num den).value - e| ≤ |(z.magnitude : ℚ) - num / den| / unitsPerOne := by
    rw [hself]
    exact div_le_div_of_nonneg_right (roundPattern_nearest hd (representable_magnitude z)).1 hU.le
  refine ⟨hfin, fun z hz => (hnear z).trans (hother z), fun z hz hne heq => ?_⟩
  rw [fraction_round hd hlt]
  by_cases hmag : z.magnitude = patternMagnitude (roundPattern num den)
  · refine absurd (eq_of_equidistant ?_ ?_ ?_ heq) hne
    · rw [hval, abs_signed neg (by positivity), abs_value, hmag]
    · rw [hval, he]
      cases neg <;> simp <;> positivity
    · intro h0
      have hz0 := (hnear (zero false)).trans (hother (zero false))
      rw [h0, zero_value, sub_zero, sub_zero, abs_zero] at hz0
      exact abs_nonpos_iff.1 hz0
  · refine (roundPattern_nearest hd (representable_magnitude z)).2 hmag ?_
    have hle : |(z.magnitude : ℚ) - num / den| / unitsPerOne =
        |(patternMagnitude (roundPattern num den) : ℚ) - num / den| / unitsPerOne :=
      le_antisymm (by rw [← hself, ← heq]; exact hother z) (by rw [← hself]; exact hnear z)
    exact (div_left_inj' hU.ne').1 hle

/-- An infinity from the overflow bound on (R189). -/
theorem round_of_overflow (hd : 0 < den) (hle : overflowUnits * den ≤ num) : round neg num den = infinity neg := by
  have hinf : infPattern ≤ roundPattern num den := Nat.not_lt.1 fun h => Nat.not_lt.2 hle ((roundPattern_lt_inf_iff hd).1 h)
  rw [round, Nat.min_eq_right hinf, infinity]

@[simp] theorem isInf_infinity (neg : Bool) : (infinity neg).isInf = true := by cases neg <;> decide +kernel

/-- One rounding of an exact result with its sign is the result of R181 and R189. -/
theorem round_isResult {zeroSign : Bool} (hd : 0 < den)
    (he : e = (if neg then -1 else 1) * ((num : ℚ) / den / unitsPerOne)) (hzero : e = 0 → neg = zeroSign) :
    IsResult e zeroSign (round neg num den) := by
  have hU := unitsPerOne_pos'
  have hd' : (0 : ℚ) < den := by exact_mod_cast hd
  have hE : (0 : ℚ) ≤ (num : ℚ) / den / unitsPerOne := by positivity
  have hbound : |e| < overflowBound ↔ num < overflowUnits * den := by
    rw [he, abs_signed neg hE, overflowBound_eq, div_lt_div_iff_of_pos_right hU, div_lt_iff₀ hd']
    exact_mod_cast Iff.rfl
  refine ⟨?_, fun h => round_isRounded hd he (hbound.1 h), fun h => ?_⟩
  · rw [sign_round]
    split
    case isTrue h0 => exact hzero h0
    case isFalse h0 =>
      cases neg
      · simp only [Bool.false_eq_true, if_false, one_mul] at he
        rw [he, eq_comm, decide_eq_false_iff_not, not_lt]
        exact hE
      · simp only [if_true, neg_one_mul] at he
        rw [eq_comm, decide_eq_true_eq, he, neg_lt_zero]
        exact lt_of_le_of_ne hE fun h => h0 (by rw [he, ← h, neg_zero])
  · rw [round_of_overflow hd (Nat.not_lt.1 (mt hbound.2 (not_lt.2 h))), isInf_infinity]

end Rounding

/-! ## The four operations -/

/-- A zero is the result zero, with any sign. -/
theorem zero_isResult (neg : Bool) : IsResult 0 neg (zero neg) where
  sign_eq := by rw [zero_sign, if_pos rfl]
  rounded _ := by
    have h0 := zero_value neg
    refine ⟨zero_isFinite neg, fun z _ => ?_, fun z _ hne heq => absurd ?_ hne⟩
    · rw [h0, sub_zero, abs_zero]
      exact abs_nonneg _
    · rwa [h0, sub_zero, sub_zero, abs_zero, abs_eq_zero, ← h0] at heq
  overflow h := by
    have hpos : (0 : ℚ) < overflowBound := by
      rw [overflowBound_eq]
      have : 0 < overflowUnits := by unfold overflowUnits; positivity
      exact div_pos (by exact_mod_cast this) unitsPerOne_pos'
    rw [abs_zero] at h
    exact absurd h (not_le.2 hpos)

theorem value_add_eq (x y : F64) : x.value + y.value = ((x.units + y.units : ℤ) : ℚ) / unitsPerOne := by
  rw [value, value, Int.cast_add, add_div]

/-- An integer number of units as a sign and a magnitude. -/
theorem intCast_units_eq (z : ℤ) : (z : ℚ) / unitsPerOne =
    (if decide (z < 0) = true then -1 else 1) * ((z.natAbs : ℚ) / (1 : ℕ) / unitsPerOne) := by
  rw [Nat.cast_one, div_one, Nat.cast_natAbs]
  by_cases h : z < 0
  · rw [abs_of_neg h]
    simp [h, neg_div]
  · rw [abs_of_nonneg (not_lt.1 h)]
    simp [h]

theorem add_isResult (hx : x.isFinite = true) (hy : y.isFinite = true) :
    IsResult (x.value + y.value) (x.sign && y.sign) (x.add y) := by
  rw [add_of_finite hx hy, addFinite, value_add_eq]
  split
  case isTrue h0 =>
    rw [h0, Int.cast_zero, zero_div]
    exact zero_isResult _
  case isFalse h0 =>
    refine round_isResult Nat.one_pos (intCast_units_eq _) fun h => absurd ?_ h0
    exact Int.cast_eq_zero.1 ((div_eq_zero_iff.1 h).resolve_right unitsPerOne_pos'.ne')

theorem sub_isResult (hx : x.isFinite = true) (hy : y.isFinite = true) :
    IsResult (x.value - y.value) (x.sign && !y.sign) (x.sub y) := by
  have h := add_isResult hx (y := y.neg) (by rwa [isFinite_neg])
  rwa [value_neg, sign_neg, ← sub_eq_add_neg] at h

/-- The sign of a product or quotient of signs is their exclusive or. -/
theorem sign_xor (a b : Bool) : (if (a != b) = true then (-1 : ℚ) else 1) = (if a then -1 else 1) * (if b then -1 else 1) := by
  cases a <;> cases b <;> norm_num

theorem mul_isResult (hx : x.isFinite = true) (hy : y.isFinite = true) :
    IsResult (x.value * y.value) (x.sign != y.sign) (x.mul y) := by
  rw [mul_of_finite hx hy]
  refine round_isResult unitsPerOne_pos ?_ fun _ => rfl
  rw [value_eq, value_eq, sign_xor, Nat.cast_mul]
  ring

theorem div_isResult (hx : x.isFinite = true) (hy : y.isFinite = true) (h0 : y.value ≠ 0) :
    IsResult (x.value / y.value) (x.sign != y.sign) (x.div y) := by
  have hm := magnitude_ne_zero h0
  rw [div_of_finite hx hy hm]
  refine round_isResult (Nat.pos_of_ne_zero hm) ?_ fun _ => rfl
  have hU := unitsPerOne_pos'.ne'
  have hm' : (y.magnitude : ℚ) ≠ 0 := by exact_mod_cast hm
  rw [value_eq, value_eq, sign_xor, Nat.cast_mul]
  cases x.sign <;> cases y.sign <;> simp <;> field_simp

end Sys2Proof.F64

namespace Sys2Proof.Proofs

open F64

/-- Settles O50: below the overflow bound each operation is a rounding of R181. -/
theorem arithmeticRoundsOnceToNearestEven : Obligations.ArithmeticRoundsOnceToNearestEven := fun _ _ hx hy =>
  ⟨(add_isResult hx hy).rounded, (sub_isResult hx hy).rounded, (mul_isResult hx hy).rounded,
    fun h0 => (div_isResult hx hy h0).rounded⟩

end Sys2Proof.Proofs
end

section
/-! PROOF. The machine's arithmetic meets R180 to R187 (R193): NaN, infinite and zero operands, the comparisons; and what the
rules imply. -/

namespace Sys2Proof.F64

set_option exponentiation.threshold 4096

variable {x y : F64}

/-! ## NaN, infinity and zero -/

theorem exponent_eq_extract (x : F64) : x.exponent = (x.bits.extractLsb' 52 11).toNat := by
  simp [exponent, BitVec.extractLsb'_toNat, Nat.shiftRight_eq_div_pow]

theorem fraction_eq_extract (x : F64) : x.fraction = (x.bits.extractLsb' 0 52).toNat := by
  simp [fraction, BitVec.extractLsb'_toNat]

/-- Whatever its sign and payload, the NaN of an invalid operation is a NaN: the quiet pattern's bits stay set. -/
theorem isNaN_freeNaN (op : ℕ) (x y : F64) : (freeNaN op x y).isNaN = true := by
  have hexp : (freeNaN op x y).exponent = 2047 := by
    have hquiet : (0x7FF8000000000000#64).extractLsb' 52 11 = BitVec.allOnes 11 := by decide
    rw [exponent_eq_extract, freeNaN, BitVec.extractLsb'_or, hquiet, BitVec.allOnes_or]
    rfl
  have hfrac : (freeNaN op x y).fraction ≠ 0 := by
    rw [fraction_eq_extract, freeNaN, BitVec.extractLsb'_or, BitVec.toNat_or]
    exact (Nat.lt_of_lt_of_le (by decide) Nat.left_le_or).ne'
  simp [isNaN, hexp, hfrac]

@[simp] theorem isNaN_neg (x : F64) : x.neg.isNaN = x.isNaN := by simp [isNaN]

@[simp] theorem isInf_neg (x : F64) : x.neg.isInf = x.isInf := by simp [isInf]

/-- What is neither a NaN nor an infinity is finite. -/
theorem isFinite_of_not (hn : x.isNaN = false) (hi : x.isInf = false) : x.isFinite = true := by
  simp only [isNaN, isInf, isFinite, bne_iff_ne, Bool.and_eq_false_iff, beq_eq_false_iff_ne, bne_eq_false_iff_eq] at *
  tauto

theorem isInf_iff : x.isInf = true ↔ x.exponent = 2047 ∧ x.fraction = 0 := by simp [isInf]

theorem isNaN_of_isInf (h : x.isInf = true) : x.isNaN = false := by simp [isNaN, (isInf_iff.1 h).2]

/-- An infinity is the infinity of its sign. -/
theorem eq_infinity (h : x.isInf = true) : x = infinity x.sign := by
  obtain ⟨hexp, hfrac⟩ := isInf_iff.1 h
  have hlt := x.bits.isLt
  have hbits : x.bits = (infinity x.sign).bits := by
    apply BitVec.eq_of_toNat_eq
    rw [infinity, toNat_ofPattern (by decide), sign, BitVec.msb_eq_decide, infPattern]
    unfold exponent at hexp
    unfold fraction at hfrac
    split <;> simp only [decide_eq_true_eq] at * <;> omega
  exact congrArg F64.mk hbits

theorem neg_of_isInf (h : x.isInf = true) : x.neg = infinity (!x.sign) := by
  rw [eq_infinity (x := x.neg) (by rwa [isInf_neg]), sign_neg]

theorem value_eq_zero : x.value = 0 ↔ x.magnitude = 0 := by
  rw [value, div_eq_zero_iff, or_iff_left unitsPerOne_pos'.ne', Int.cast_eq_zero, units_eq_zero]

theorem magnitude_of_isInf (h : x.isInf = true) : x.magnitude = rangeUnits := by
  obtain ⟨hexp, hfrac⟩ := isInf_iff.1 h
  rw [magnitude, hexp, hfrac, if_neg (by norm_num), rangeUnits, Nat.add_zero, ← Nat.pow_add]

theorem units_of_isInf (h : x.isInf = true) : x.units = if x.sign then -(rangeUnits : ℤ) else rangeUnits := by
  rw [units, magnitude_of_isInf h]

/-! ## Operands that are not finite -/

theorem add_of_infinite (hx : x.isNaN = false) (hy : y.isNaN = false) (h : x.isInf = true ∨ y.isInf = true) :
    if x.isInf = true ∧ y.isInf = true ∧ x.sign ≠ y.sign then (x.add y).isNaN = true
    else x.add y = if x.isInf then x else y := by
  cases hxi : x.isInf with
  | false => simp [add, hx, hy, hxi, h.resolve_left (by simp [hxi])]
  | true =>
    cases hyi : y.isInf with
    | false => simp [add, hx, hy, hxi, hyi]
    | true => by_cases hs : x.sign = y.sign <;> simp [add, hx, hy, hxi, hyi, hs, isNaN_freeNaN]

/-- The difference is the sum with the sign of y reversed (R183). -/
theorem sub_of_infinite (hx : x.isNaN = false) (hy : y.isNaN = false) (h : x.isInf = true ∨ y.isInf = true) :
    if x.isInf = true ∧ y.isInf = true ∧ x.sign = y.sign then (x.sub y).isNaN = true
    else x.sub y = if x.isInf then x else infinity (!y.sign) := by
  have hadd := add_of_infinite hx (y := y.neg) (by rwa [isNaN_neg]) (by rwa [isInf_neg])
  have hsign : x.sign ≠ !y.sign ↔ x.sign = y.sign := by cases x.sign <;> cases y.sign <;> decide
  have hneg : (if x.isInf then x else y.neg) = if x.isInf then x else infinity (!y.sign) := by
    by_cases hxi : x.isInf = true
    · rw [if_pos hxi, if_pos hxi]
    · rw [if_neg hxi, if_neg hxi, neg_of_isInf (h.resolve_left hxi)]
  rw [isInf_neg, sign_neg, hneg] at hadd
  rw [sub]
  simpa only [hsign] using hadd

theorem mul_of_infinite (hx : x.isNaN = false) (hy : y.isNaN = false) (h : x.isInf = true ∨ y.isInf = true) :
    if x.magnitude = 0 ∨ y.magnitude = 0 then (x.mul y).isNaN = true else x.mul y = infinity (x.sign != y.sign) := by
  have hany : (x.isInf || y.isInf) = true := by simpa using h
  simp only [mul, hx, hy, hany, Bool.or_false, Bool.false_eq_true, if_true, if_false]
  split
  · exact isNaN_freeNaN 1 x y
  · rfl

theorem div_of_infinite (hx : x.isNaN = false) (hy : y.isNaN = false) (h : x.isInf = true ∨ y.isInf = true) :
    if x.isInf = true ∧ y.isInf = true then (x.div y).isNaN = true
    else x.div y = if x.isInf then infinity (x.sign != y.sign) else zero (x.sign != y.sign) := by
  cases hxi : x.isInf with
  | false => simp [div, hx, hy, hxi, h.resolve_left (by simp [hxi])]
  | true => cases hyi : y.isInf <;> simp [div, hx, hy, hxi, hyi, isNaN_freeNaN]

/-- R185: a value by zero. -/
theorem div_of_zero (hx : x.isFinite = true) (hy : y.isFinite = true) (h0 : y.value = 0) :
    if x.value = 0 then (x.div y).isNaN = true else x.div y = infinity (x.sign != y.sign) := by
  have hdiv : x.div y = if x.magnitude = 0 then freeNaN 2 x y else infinity (x.sign != y.sign) := by
    simp [div, isNaN_of_finite hx, isNaN_of_finite hy, isInf_of_finite hx, isInf_of_finite hy, value_eq_zero.1 h0]
  rw [hdiv]
  split
  case isTrue hv => rw [if_pos (value_eq_zero.1 hv), isNaN_freeNaN]
  case isFalse hv => rw [if_neg (mt value_eq_zero.2 hv)]

/-- A NaN operand gives a NaN (R183). -/
theorem isNaN_of_operand (h : x.isNaN = true ∨ y.isNaN = true) : (x.add y).isNaN = true ∧ (x.sub y).isNaN = true ∧
    (x.mul y).isNaN = true ∧ (x.div y).isNaN = true := by
  have hany : (x.isNaN || y.isNaN) = true := by simpa using h
  simp [sub, add, mul, div, hany, isNaN_freeNaN]

/-! ## Comparisons -/

/-- A NaN operand makes every comparison false (R186). -/
theorem compare_of_nan (h : x.isNaN = true ∨ y.isNaN = true) : x.eq y = false ∧ x.lt y = false ∧ x.gt y = false := by
  obtain h | h := h <;> simp [F64.eq, F64.lt, F64.gt, h]

/-- A finite value and an infinity have different units. -/
theorem units_ne_of_isInf (hx : x.isInf = true) (hy : y.isFinite = true) : x.units ≠ y.units := by
  intro h
  have habs := congrArg Int.natAbs h
  rw [natAbs_units, natAbs_units, magnitude_of_isInf hx] at habs
  exact (magnitude_lt hy).ne habs.symm

/-- Two infinities compare by their signs. -/
theorem units_inj_of_isInf (hx : x.isInf = true) (hy : y.isInf = true) : x.units = y.units ↔ x = y := by
  refine ⟨fun h => ?_, fun h => h ▸ rfl⟩
  have hpos : 0 < rangeUnits := by unfold rangeUnits; positivity
  have hsign : x.sign = y.sign := by
    rw [units_of_isInf hx, units_of_isInf hy] at h
    cases hxs : x.sign <;> cases hys : y.sign <;> simp [hxs, hys] at h ⊢ <;> omega
  rw [eq_infinity hx, eq_infinity hy, hsign]

/-- With an infinite operand, equal units are equal patterns. -/
theorem units_inj_of_infinite (hx : x.isNaN = false) (hy : y.isNaN = false) (h : x.isInf = true ∨ y.isInf = true) :
    x.units = y.units ↔ x = y := by
  cases hxi : x.isInf with
  | true =>
    cases hyi : y.isInf with
    | true => exact units_inj_of_isInf hxi hyi
    | false => exact iff_of_false (units_ne_of_isInf hxi (isFinite_of_not hy hyi)) fun heq => by simp [← heq, hxi] at hyi
  | false =>
    have hyi : y.isInf = true := h.resolve_left (by simp [hxi])
    exact iff_of_false (units_ne_of_isInf hyi (isFinite_of_not hx hxi)).symm fun heq => by simp [heq, hyi] at hxi

theorem eq_of_infinite (hx : x.isNaN = false) (hy : y.isNaN = false) (h : x.isInf = true ∨ y.isInf = true) :
    x.eq y = decide (x = y) := by
  rw [Bool.eq_iff_iff, decide_eq_true_iff, ← units_inj_of_infinite hx hy h]
  simp [F64.eq, hx, hy]

theorem lt_irrefl (x : F64) : x.lt x = false := by simp [F64.lt]

/-- Two infinities of opposite signs. -/
theorem lt_of_opposite (hx : x.isInf = true) (hy : y.isInf = true) (hne : x ≠ y) : x.lt y = x.sign ∧ x.sign = !y.sign := by
  have hpos : 0 < rangeUnits := by unfold rangeUnits; positivity
  have hsign : x.sign = !y.sign := by
    refine Bool.eq_not_of_ne fun hs => hne ?_
    rw [eq_infinity hx, eq_infinity hy, hs]
  refine ⟨?_, hsign⟩
  rw [F64.lt, isNaN_of_isInf hx, isNaN_of_isInf hy, units_of_isInf hx, units_of_isInf hy, hsign]
  cases y.sign <;> simp [hpos]

theorem lt_of_infinite_operand (hx : x.isNaN = false) (hy : y.isNaN = false) (h : x.isInf = true ∨ y.isInf = true) :
    x.lt y = if x = y then false else if x.isInf then x.sign else !y.sign := by
  split
  case isTrue heq => rw [heq, lt_irrefl]
  case isFalse hne =>
    cases hxi : x.isInf with
    | true =>
      cases hyi : y.isInf with
      | true => exact (lt_of_opposite hxi hyi hne).1
      | false => exact (lt_of_infinite hxi (isFinite_of_not hy hyi)).1
    | false => exact (lt_of_infinite (h.resolve_left (by simp [hxi])) (isFinite_of_not hx hxi)).2

theorem gt_of_infinite_operand (hx : x.isNaN = false) (hy : y.isNaN = false) (h : x.isInf = true ∨ y.isInf = true) :
    x.gt y = if x = y then false else if x.isInf then !x.sign else y.sign := by
  rw [gt, lt_of_infinite_operand hy hx h.symm, if_congr eq_comm rfl rfl]
  split
  case isTrue => rfl
  case isFalse hne =>
    cases hxi : x.isInf with
    | true =>
      cases hyi : y.isInf with
      | true => simpa using (lt_of_opposite hxi hyi hne).2.symm ▸ (Bool.not_not y.sign).symm
      | false => rfl
    | false => rw [h.resolve_left (by simp [hxi])]; rfl

/-! ## The rules, and what they imply -/

/-- The machine's own arithmetic meets R180 to R187. -/
theorem ieee_rules : Binary64.ieee.Rules where
  add_finite _ _ := add_isResult
  sub_finite _ _ := sub_isResult
  mul_finite _ _ := mul_isResult
  div_finite _ _ := div_isResult
  div_zero _ _ := div_of_zero
  nan_operand _ _ := isNaN_of_operand
  add_infinite _ _ := add_of_infinite
  sub_infinite _ _ := sub_of_infinite
  mul_infinite _ _ := mul_of_infinite
  div_infinite _ _ := div_of_infinite
  ofInt_exact _ := exactly_ofInt Binary64.ieee_monotoneExact
  ofInt_zero := by decide +kernel
  compare_finite _ _ hx hy := ⟨eq_iff_value hx hy, lt_iff_value hx hy, lt_iff_value hy hx⟩
  compare_nan _ _ := compare_of_nan
  compare_infinite _ _ hx hy h := ⟨eq_of_infinite hx hy h, lt_of_infinite_operand hx hy h, gt_of_infinite_operand hx hy h⟩
  trunc_finite := Proofs.truncationIsTowardZero

/-- Every finite magnitude is below the overflow bound. -/
theorem abs_value_lt_overflowBound (hx : x.isFinite = true) : |x.value| < overflowBound := by
  have hm := magnitude_lt hx
  have hexact := round_exact Nat.one_pos (representable_magnitude x)
  have hlt := (roundPattern_lt_inf_iff Nat.one_pos).1 (roundPattern_lt_inf Nat.one_pos (hexact.trans_lt hm))
  rw [abs_value, overflowBound_eq, div_lt_div_iff_of_pos_right unitsPerOne_pos', Nat.cast_lt]
  simpa using hlt

/-- A nearest value lies between any two that the exact result lies between. -/
theorem IsResult.between {e : ℚ} {zeroSign : Bool} {r : F64} (h : IsResult e zeroSign r) : Between e r := by
  intro lo hi hlo hhi hle hge
  have hbound : |e| < overflowBound := by
    obtain ⟨hl, -⟩ := abs_lt.1 (abs_value_lt_overflowBound hlo)
    obtain ⟨-, hu⟩ := abs_lt.1 (abs_value_lt_overflowBound hhi)
    exact abs_lt.2 ⟨hl.trans_le hle, hge.trans_lt hu⟩
  obtain ⟨hfin, hnear, -⟩ := h.rounded hbound
  have hnlo := hnear lo hlo
  have hnhi := hnear hi hhi
  rw [abs_of_nonpos (sub_nonpos.2 hle)] at hnlo
  rw [abs_of_nonneg (sub_nonneg.2 hge)] at hnhi
  exact ⟨hfin, by linarith [(abs_le.1 hnlo).1], by linarith [(abs_le.1 hnhi).2]⟩

/-- The floor of a value that is not negative, or the ceiling of a negative one, is no larger in magnitude. -/
theorem abs_floor_or_ceil_le (v : ℚ) : |((if 0 ≤ v then ⌊v⌋ else ⌈v⌉ : ℤ) : ℚ)| ≤ |v| := by
  split
  case isTrue h =>
    have h0 : (0 : ℚ) ≤ ⌊v⌋ := by exact_mod_cast Int.floor_nonneg.2 h
    rw [abs_of_nonneg h0, abs_of_nonneg h]
    exact Int.floor_le v
  case isFalse h =>
    have hv : v ≤ 0 := (not_le.1 h).le
    have h0 : (⌈v⌉ : ℚ) ≤ 0 := by exact_mod_cast Int.ceil_le.2 (by simpa using hv)
    rw [abs_of_nonpos h0, abs_of_nonpos hv]
    exact neg_le_neg (Int.le_ceil v)

/-- Whatever meets the rules is monotone and exact on exactly representable results (R193). -/
theorem monotoneExact_of_rules {ar : Binary64} (h : ar.Rules) : ar.MonotoneExact where
  add x y hx hy := (h.add_finite x y hx hy).between
  sub x y hx hy := (h.sub_finite x y hx hy).between
  mul x y hx hy := (h.mul_finite x y hx hy).between
  div x y hx hy h0 := (h.div_finite x y hx hy h0).between
  ofInt i hi := by
    obtain ⟨hfin, hval⟩ := h.ofInt_exact i hi
    exact fun lo hi _ _ hle hge => ⟨hfin, hval ▸ hle, hval ▸ hge⟩
  trunc x hx hlt := h.trunc_finite x hx hlt ▸ abs_floor_or_ceil_le x.value
  compare_finite := h.compare_finite
  compare_nan x y hx := (h.compare_nan x y (.inl hx)).2
  compare_infinite x y hx hy := by
    have hne : x ≠ y := fun heq => by simp [heq, isInf_of_finite hy] at hx
    simpa only [if_neg hne, hx, if_true] using (h.compare_infinite x y (isNaN_of_isInf hx) (isNaN_of_finite hy) (.inl hx)).2

end Sys2Proof.F64

namespace Sys2Proof.Proofs

open F64

/-- Settles O49: the conversion is exact on every representable integer. -/
theorem integerConversionIsExact : Obligations.IntegerConversionIsExact :=
  ⟨ieee_rules.ofInt_exact, congrArg F64.bits ieee_rules.ofInt_zero⟩

/-- Settles O51: the result is the infinity of its sign, and a product that large is not zero. -/
theorem overflowGivesInfinity : Obligations.OverflowGivesInfinity := by
  intro x y hx hy hle
  have hres := mul_isResult hx hy
  have hne : x.value * y.value ≠ 0 := by
    intro h0
    have hpos : |x.value| < overflowBound := abs_value_lt_overflowBound hx
    rw [h0, abs_zero] at hle
    exact absurd ((abs_nonneg _).trans_lt hpos) (not_lt.2 hle)
  exact ⟨hres.overflow hle, hres.sign_eq.trans (if_neg hne)⟩

/-- Settles O52: the sign of a result is that of its exact value, and of an exact zero the rule's. -/
theorem signsOfZeroResults : Obligations.SignsOfZeroResults := by
  intro x y hx hy
  refine ⟨fun h => ?_, fun h => ?_, ?_, fun h0 => ?_⟩
  · obtain ⟨-, hval⟩ := (add_isResult hx hy).between.exactly (h ▸ attained_zero)
    exact ⟨hval.trans h, (add_isResult hx hy).sign_eq.trans (if_pos h)⟩
  · obtain ⟨-, hval⟩ := (sub_isResult hx hy).between.exactly (h ▸ attained_zero)
    exact ⟨hval.trans h, (sub_isResult hx hy).sign_eq.trans (if_pos h)⟩
  · rw [mul_of_finite hx hy, sign_round]
  · rw [div_of_finite hx hy (magnitude_ne_zero h0), sign_round]

/-- Settles O53: the comparisons of finite values by their units, and a NaN compares false. -/
theorem comparisonsAreThoseOfTheReals : Obligations.ComparisonsAreThoseOfTheReals := fun x y =>
  ⟨ieee_rules.compare_finite x y, compare_of_nan⟩

/-- Settles O55: each rule by the operation's own lemma; a result rounded to nearest is monotone, and exact where it can be. -/
theorem ieeeArithmeticMeetsTheRules : Obligations.IeeeArithmeticMeetsTheRules :=
  ⟨ieee_rules, fun _ => monotoneExact_of_rules⟩

end Sys2Proof.Proofs
end

section
/-! PROOF. The pressure and humidity formulas stay far inside the range of binary64 (R216, R223): one bound by a power of two per
operation, for any binary64 implementation that is monotone and exact on exactly representable results. -/

namespace Sys2Proof.F64

set_option exponentiation.threshold 4096

open Machine

variable {x y : F64} {i j : ℕ}

/-- x is finite and of magnitude at most 2^k, a number in the range. -/
def Below (x : F64) (k : ℕ) : Prop := k < 1024 ∧ Within x (2 ^ k)

theorem Below.isFinite (h : Below x i) : x.isFinite = true := h.2.1

/-- A sum of two powers of two is at most the double of the greater. -/
theorem two_pow_add_le (i j : ℕ) : (2 ^ i + 2 ^ j : ℚ) ≤ 2 ^ (max i j + 1) := by
  have hi : (2 : ℚ) ^ i ≤ 2 ^ max i j := pow_le_pow_right₀ (by norm_num) (le_max_left i j)
  have hj : (2 : ℚ) ^ j ≤ 2 ^ max i j := pow_le_pow_right₀ (by norm_num) (le_max_right i j)
  rw [pow_succ]
  linarith

section Operations
variable {ar : Binary64} (hM : ar.MonotoneExact)
include hM

theorem below_lit {n k : ℕ} (hn : n ≤ 2 ^ k) (hk : k < 53) : Below (lit ar n) k := by
  have hlt : n < 2 ^ 53 := hn.trans_lt (Nat.pow_lt_pow_right (by norm_num) hk)
  exact ⟨by omega, (within_lit hM hlt).mono (by exact_mod_cast hn)⟩

theorem below_fu {k : ℕ} (v : BitVec k) (hk : k ≤ 53) : Below (fu ar v) k :=
  ⟨by omega, (exactly_fu hM v hk).within (by rw [Nat.abs_cast]; exact_mod_cast v.isLt.le)⟩

theorem below_fs {k : ℕ} (v : BitVec k) (hk : k ≤ 53) : Below (fs ar v) (k - 1) := by
  refine ⟨by omega, (exactly_fs hM v hk).within ?_⟩
  rw [← Int.cast_abs, Int.abs_eq_natAbs]
  exact_mod_cast natAbs_toInt_le v

theorem below_add (hx : Below x i) (hy : Below y j) (hk : max i j + 1 < 1024) : Below (ar.add x y) (max i j + 1) :=
  ⟨hk, within_add hM hx.2 hy.2 (attained_two_pow hk) (two_pow_add_le i j)⟩

theorem below_sub (hx : Below x i) (hy : Below y j) (hk : max i j + 1 < 1024) : Below (ar.sub x y) (max i j + 1) :=
  ⟨hk, within_sub hM hx.2 hy.2 (attained_two_pow hk) (two_pow_add_le i j)⟩

theorem below_mul (hx : Below x i) (hy : Below y j) (hk : i + j < 1024) : Below (ar.mul x y) (i + j) :=
  ⟨hk, within_mul hM hx.2 hy.2 (attained_two_pow hk) (pow_add 2 i j).ge⟩

/-- Division by a literal does not enlarge. -/
theorem below_div_lit {n : ℕ} (hx : Below x i) (hpos : 0 < n) (hn : n < 2 ^ 53) : Below (ar.div x (lit ar n)) i := by
  refine ⟨hx.1, within_div_lit hM hx.2 hpos hn (attained_two_pow hx.1) ?_⟩
  exact le_mul_of_one_le_right (by positivity) (by exact_mod_cast hpos)

/-- Division by a number of magnitude at least 2^-j. -/
theorem below_div (hx : Below x i) (hy : y.isFinite = true) (hb : 1 / 2 ^ j ≤ |y.value|) (hk : i + j < 1024) :
    Below (ar.div x y) (i + j) := by
  refine ⟨hk, within_div hM hx.2 hy (by positivity) hb (attained_two_pow hk) ?_⟩
  rw [pow_add, mul_assoc, mul_one_div_cancel (by positivity), mul_one]

end Operations

/-! ## Lower bounds -/

theorem attained_two_pow_neg {k : ℕ} (hk : k ≤ 1074) : Attained (1 / 2 ^ k) := by
  simpa using attained_natCast_div (n := 1) (by decide) hk

/-- A result that is not zero rounds an exact value that is not zero. -/
theorem Between.exact_ne_zero {e : ℚ} (h : Between e x) (hx : x.value ≠ 0) : e ≠ 0 := fun h0 =>
  hx ((h.exactly (h0 ▸ attained_zero)).2.trans h0)

/-- Monotone: a representable lower bound of an exact magnitude in the range bounds the rounded one. -/
theorem Between.le_abs_value {e b c : ℚ} (h : Between e x) (hb : Attained b) (hle : b ≤ |e|) (hc : Attained c)
    (hec : |e| ≤ c) : b ≤ |x.value| := by
  obtain ⟨hlow, hhigh⟩ := abs_le.1 hec
  obtain hpos | hneg := le_abs.1 hle
  · obtain ⟨lo, hlo, rfl⟩ := hb
    obtain ⟨hi, hhi, rfl⟩ := hc
    obtain ⟨-, hge, -⟩ := h lo hi hlo hhi hpos hhigh
    exact le_abs.2 (.inl hge)
  · obtain ⟨hi, hhi, hval⟩ := attained_neg hb
    obtain ⟨lo, hlo, hval'⟩ := attained_neg hc
    obtain ⟨-, -, hge⟩ := h lo hi hlo hhi (hval' ▸ hlow) (hval ▸ le_neg_of_le_neg hneg)
    exact le_abs.2 (.inr (le_neg_of_le_neg (hval ▸ hge)))

/-- A magnitude of place 2^t is a whole number of units of that place. -/
theorem two_pow_dvd_units {n t k : ℕ} (hm : y.magnitude = n * 2 ^ t) (hk : k ≤ t) : (2 ^ k : ℤ) ∣ y.units := by
  rw [← Int.natAbs_dvd_natAbs, natAbs_units, hm, Int.natAbs_pow]
  exact Dvd.dvd.mul_left (pow_dvd_pow 2 hk) n

/-- A binary64 value that is not -1 is at least 2^-53 from it: its place is at least 2^-53, or it is at most 1/2. -/
theorem abs_one_add_ge (h : 1 + y.value ≠ 0) : (1 : ℚ) / 2 ^ 53 ≤ |1 + y.value| := by
  have hU := unitsPerOne_pos'
  obtain ⟨n, t, hn, hm⟩ := representable_magnitude y
  obtain ht | ht := Nat.lt_or_ge t 1021
  · have hhalf : |y.value| ≤ 1 / 2 := by
      have hle : y.magnitude * 2 ≤ unitsPerOne := by
        calc y.magnitude * 2 ≤ 2 ^ 53 * 2 ^ 1020 * 2 := by
              rw [hm]
              gcongr <;> omega
          _ = unitsPerOne := by rw [unitsPerOne, ← pow_add, ← pow_succ]
      rw [abs_value, div_le_div_iff₀ hU (by norm_num), one_mul]
      exact_mod_cast hle
    have hge : (1 : ℚ) / 2 ≤ |1 + y.value| := le_abs.2 (.inl (by linarith [(abs_le.1 hhalf).1]))
    exact le_trans (by norm_num) hge
  · have hone : 1 + y.value = ((2 ^ 1074 + y.units : ℤ) : ℚ) / unitsPerOne := by
      rw [value, unitsPerOne]
      push_cast
      rw [add_div, div_self (by positivity)]
    have hdvd : (2 ^ 1021 : ℤ) ∣ 2 ^ 1074 + y.units := dvd_add (pow_dvd_pow 2 (by norm_num)) (two_pow_dvd_units hm ht)
    have hne : (2 ^ 1074 + y.units : ℤ) ≠ 0 := fun h0 => h (by rw [hone, h0]; simp)
    have hle : (2 ^ 1021 : ℤ) ≤ |2 ^ 1074 + y.units| := Int.le_of_dvd (abs_pos.2 hne) ((dvd_abs _ _).2 hdvd)
    have hleq : (2 ^ 1021 : ℚ) ≤ |((2 ^ 1074 + y.units : ℤ) : ℚ)| := by exact_mod_cast hle
    rw [hone, abs_div, abs_of_pos hU, le_div_iff₀ hU, unitsPerOne, Nat.cast_pow, Nat.cast_ofNat]
    refine le_trans (le_of_eq ?_) hleq
    rw [one_div_mul_eq_div, div_eq_iff (by positivity), ← pow_add]

theorem Below.abs_sum_le (hx : Below x i) (hy : Below y j) : |x.value + y.value| ≤ 2 ^ (max i j + 1) :=
  (abs_add_le x.value y.value).trans ((add_le_add hx.2.2 hy.2.2).trans (two_pow_add_le i j))

theorem Below.abs_prod_le (hx : Below x i) (hy : Below y j) : |x.value * y.value| ≤ 2 ^ (i + j) := by
  rw [abs_mul, pow_add]
  exact mul_le_mul hx.2.2 hy.2.2 (abs_nonneg _) (by positivity)

end Sys2Proof.F64

namespace Sys2Proof.Machine

open F64

section Formulas
variable {ar : Binary64} (hM : ar.MonotoneExact)
include hM

/-! ## The denominator -/

theorem below_pX1 (tf : BitVec 32) : Below (pX1 ar tf) 32 :=
  below_sub hM (below_div_lit hM (below_fs hM tf (by decide)) (by decide) (by decide))
    (below_lit hM (k := 16) (by decide) (by decide)) (by decide)

/-- The term added to 1 in the bracket of the denominator, `w1 / 32768`. -/
theorem below_bracketTerm (c : PressCoeffs) (tf : BitVec 32) :
    Below (ar.div (ar.div (ar.add (ar.div (ar.mul (ar.mul (fs ar c.p3) (pX1 ar tf)) (pX1 ar tf)) (lit ar 524288))
      (ar.mul (fs ar c.p2) (pX1 ar tf))) (lit ar 524288)) (lit ar 32768)) 80 := by
  have hx1 := below_pX1 hM tf
  have hquadratic := below_mul hM (below_mul hM (below_fs hM c.p3 (by decide)) hx1 (by decide)) hx1 (by decide)
  have hlinear := below_mul hM (below_fs hM c.p2 (by decide)) hx1 (by decide)
  have hsum := below_add hM (below_div_lit hM hquadratic (n := 524288) (by decide) (by decide)) hlinear (by decide)
  exact below_div_lit hM (below_div_lit hM hsum (by decide) (by decide)) (by decide) (by decide)

theorem below_pBracket (c : PressCoeffs) (tf : BitVec 32) : Below (pBracket ar c tf) 81 :=
  below_add hM (below_lit hM (n := 1) (k := 0) (by decide) (by decide)) (below_bracketTerm hM c tf) (by decide)

theorem below_pDenominator (c : PressCoeffs) (tf : BitVec 32) : Below (pDenominator ar c tf) 97 :=
  below_mul hM (below_pBracket hM c tf) (below_fu hM c.p1 (by decide)) (by decide)

/-- The denominator, with the exact product it rounds. -/
theorem pDenominator_between (c : PressCoeffs) (tf : BitVec 32) :
    Between ((pBracket ar c tf).value * c.p1.toNat) (pDenominator ar c tf) := by
  obtain ⟨hfin, hval⟩ := exactly_fu hM c.p1 (by decide)
  rw [← hval]
  exact hM.mul _ _ (below_pBracket hM c tf).isFinite hfin

/-- The comparison of R211 asks whether the denominator's value is 0. -/
theorem eq_ofInt_zero_iff {x : F64} (hx : x.isFinite = true) : ar.eq x (ar.ofInt 0) = true ↔ x.value = 0 := by
  obtain ⟨hfin, hval⟩ := exactly_ofInt hM (i := 0) (by decide)
  rw [(hM.compare_finite x _ hx hfin).1, hval, Int.cast_zero]

/-- P1 = 0 makes the denominator zero (R211). -/
theorem pDenominator_value_of_p1 {c : PressCoeffs} (h : c.p1 = 0#16) (tf : BitVec 32) :
    (pDenominator ar c tf).value = 0 := by
  have hzero : (pBracket ar c tf).value * c.p1.toNat = 0 := by simp [h]
  obtain ⟨-, hval⟩ := (pDenominator_between hM c tf).exactly (hzero ▸ attained_zero)
  rw [hval, hzero]

/-- A denominator that is not zero is at least 2^-53 in magnitude (R216): so is the bracket, the rounded sum of 1 and a binary64
value, and P1 is at least 1. -/
theorem le_abs_pDenominator {c : PressCoeffs} {tf : BitVec 32} (h : (pDenominator ar c tf).value ≠ 0) :
    1 / 2 ^ 53 ≤ |(pDenominator ar c tf).value| := by
  have hden := pDenominator_between hM c tf
  have hprod := hden.exact_ne_zero h
  have hp1 : (1 : ℚ) ≤ c.p1.toNat := by exact_mod_cast Nat.pos_of_ne_zero fun h0 => hprod (by rw [h0]; simp)
  have hone := below_lit hM (n := 1) (k := 0) (by decide) (by decide)
  have hterm := below_bracketTerm hM c tf
  have hsum := hM.add _ _ hone.isFinite hterm.isFinite
  have hle : 1 / 2 ^ 53 ≤ |(pBracket ar c tf).value| := by
    refine hsum.le_abs_value (attained_two_pow_neg (by decide)) ?_ (attained_two_pow (by decide)) (hone.abs_sum_le hterm)
    have hne := hsum.exact_ne_zero (left_ne_zero_of_mul hprod)
    rw [(exactly_lit hM (by decide)).2, Nat.cast_one] at hne ⊢
    exact abs_one_add_ge hne
  refine hden.le_abs_value (attained_two_pow_neg (by decide)) ?_ (attained_two_pow (by decide : 97 < 1024)) ?_
  · rw [abs_mul, Nat.abs_cast]
    exact hle.trans (le_mul_of_one_le_right (abs_nonneg _) hp1)
  · have hfu := below_fu hM c.p1 (by decide)
    rw [← (exactly_fu hM c.p1 (by decide)).2]
    exact (below_pBracket hM c tf).abs_prod_le hfu

/-! ## The pressure -/

theorem below_pY3 (c : PressCoeffs) (tf : BitVec 32) : Below (pY3 ar c tf) 81 := by
  have hx1 := below_pX1 hM tf
  have hy1 := below_mul hM (below_mul hM hx1 hx1 (by decide)) (below_fs hM c.p6 (by decide)) (by decide)
  have hlinear := below_mul hM (below_mul hM hx1 (below_fs hM c.p5 (by decide)) (by decide))
    (below_lit hM (n := 2) (k := 1) (by decide) (by decide)) (by decide)
  have hy2 := below_add hM (below_div_lit hM hy1 (n := 32768) (by decide) (by decide)) hlinear (by decide)
  have hp4 := below_mul hM (below_fs hM c.p4 (by decide)) (below_lit hM (n := 65536) (k := 16) (by decide) (by decide))
    (by decide)
  exact below_add hM (below_div_lit hM hy2 (n := 4) (by decide) (by decide)) hp4 (by decide)

/-- The pascal value for a denominator of magnitude at least 2^-53. -/
theorem exists_below_pPascal (adcP : BitVec 20) (c : PressCoeffs) (tf : BitVec 32) {den : F64} (hden : den.isFinite = true)
    (hle : 1 / 2 ^ 53 ≤ |den.value|) : ∃ k, Below (pPascal ar adcP c tf den) k := by
  have hp0 := below_sub hM (below_lit hM (n := 1048576) (k := 20) (by decide) (by decide)) (below_fu hM adcP (by decide))
    (by decide)
  have hdiff := below_sub hM hp0 (below_div_lit hM (below_pY3 hM c tf) (n := 4096) (by decide) (by decide)) (by decide)
  have hnum := below_mul hM hdiff (below_lit hM (n := 6250) (k := 13) (by decide) (by decide)) (by decide)
  have hp1 := below_div hM hnum hden hle (by decide)
  have hq1 := below_mul hM (below_mul hM (below_fs hM c.p9 (by decide)) hp1 (by decide)) hp1 (by decide)
  have hq2 := below_mul hM hp1 (below_fs hM c.p8 (by decide)) (by decide)
  have hsum := below_add hM (below_add hM (below_div_lit hM hq1 (n := 2147483648) (by decide) (by decide))
    (below_div_lit hM hq2 (n := 32768) (by decide) (by decide)) (by decide)) (below_fs hM c.p7 (by decide)) (by decide)
  exact ⟨_, below_add hM hp1 (below_div_lit hM hsum (n := 16) (by decide) (by decide)) (by decide)⟩

/-! ## The humidity -/

theorem isFinite_defaultHFormula (adcH : BitVec 16) (c : HumCoeffs) (tf : BitVec 32) :
    (defaultHFormula ar adcH c tf).isFinite = true := by
  have hone := below_lit hM (n := 1) (k := 0) (by decide) (by decide)
  have hv := below_sub hM (below_fs hM tf (by decide)) (below_lit hM (n := 76800) (k := 17) (by decide) (by decide))
    (by decide)
  have ha := below_add hM
    (below_mul hM (below_fs hM c.h4 (by decide)) (below_lit hM (n := 64) (k := 6) (by decide) (by decide)) (by decide))
    (below_mul hM (below_div_lit hM (below_fs hM c.h5 (by decide)) (n := 16384) (by decide) (by decide)) hv (by decide))
    (by decide)
  have hl := below_sub hM (below_fu hM adcH (by decide)) ha (by decide)
  have hinner := below_add hM hone
    (below_mul hM (below_div_lit hM (below_fu hM c.h3 (by decide)) (n := 67108864) (by decide) (by decide)) hv (by decide))
    (by decide)
  have hm := below_mul hM
    (below_mul hM (below_div_lit hM (below_fs hM c.h6 (by decide)) (n := 67108864) (by decide) (by decide)) hv (by decide))
    hinner (by decide)
  have hr := below_mul hM (below_div_lit hM (below_fs hM c.h2 (by decide)) (n := 65536) (by decide) (by decide))
    (below_add hM hone hm (by decide)) (by decide)
  have hh0 := below_mul hM hl hr (by decide)
  have hdrop := below_div_lit hM (below_mul hM (below_fu hM c.h1 (by decide)) hh0 (by decide)) (n := 524288) (by decide)
    (by decide)
  exact (below_mul hM hh0 (below_sub hM hone hdrop (by decide)) (by decide)).isFinite

end Formulas

end Sys2Proof.Machine

namespace Sys2Proof.Proofs

open Machine F64

/-- Settles O57: the guard is the formula's own test, and P1 = 0 makes the exact product zero. -/
theorem zeroDenominatorGuardForAnyArithmetic : Obligations.ZeroDenominatorGuardForAnyArithmetic := by
  rintro ar nan adcP s ⟨hh, hc⟩
  refine ⟨fun h => ?_, fun h => ?_, fun hM hp1 => ?_⟩
  · rw [compensatePressure_of_ready _ _ hh hc, respond_eq, f64Bytes_eq, defaultPFormula, lit_zero, if_pos h]
  · rw [compensatePressure_of_ready _ _ hh hc, respond_eq, f64Bytes_eq, defaultPFormula, lit_zero,
      if_neg (by rw [h]; decide), lit_hundred]
  · exact (eq_ofInt_zero_iff hM (below_pDenominator hM _ _).isFinite).2 (pDenominator_value_of_p1 hM hp1 _)

/-- Settles O26: the guard at the machine's own arithmetic. -/
theorem zeroDenominatorAnswersNaN : Obligations.ZeroDenominatorAnswersNaN := by
  refine ⟨by decide +kernel, fun nan adcP s hready h => ?_⟩
  have hguard := fun nan => zeroDenominatorGuardForAnyArithmetic .ieee nan adcP s hready
  have hzero : (pDenominator .ieee s.calRegs.press s.tFine).eq (F64.ofInt 0) = true :=
    h.elim id ((hguard nan).2.2 Binary64.ieee_monotoneExact)
  exact ⟨(hguard nan).1 hzero, (hguard Config.nanBits).1 hzero⟩

/-- Settles O27: a denominator that is not zero is at least 2^-53 in magnitude, so no operation leaves the range. -/
theorem pressureIsFiniteForNonzeroDenominator : Obligations.PressureIsFiniteForNonzeroDenominator := by
  intro nan adcP c tf h
  have hM := Binary64.ieee_monotoneExact
  have hden := (below_pDenominator hM c tf).isFinite
  have hne : (pDenominator .ieee c tf).value ≠ 0 := by
    intro h0
    rw [← eq_ofInt_zero_iff hM hden, ieee_eq, ieee_ofInt, h] at h0
    exact Bool.false_ne_true h0
  obtain ⟨k, hk⟩ := exists_below_pPascal hM adcP c tf hden (le_abs_pDenominator hM hne)
  have hguard : Binary64.ieee.eq (pDenominator .ieee c tf) (lit .ieee 0) ≠ true := by rw [lit_zero]; simpa using h
  rw [defaultPFormula, if_neg hguard]
  exact (below_div_lit hM hk (by decide) (by decide)).isFinite

end Sys2Proof.Proofs
end

section
/-! PROOF. The clamp (R221, R223), for any binary64 implementation that is monotone and exact on exactly representable results and
any humidity formula. -/

namespace Sys2Proof.Machine

open F64

variable {ar : Binary64} (hM : ar.MonotoneExact) {h : F64}
include hM

/-! ## The clamp by the value it is given -/

/-- The clamp's two comparisons, on a finite value, are those of the reals. -/
theorem clamp_compare (hfin : h.isFinite = true) :
    (ar.gt h (lit ar 100) = true ↔ 100 < h.value) ∧ (ar.lt h (lit ar 0) = true ↔ h.value < 0) := by
  obtain ⟨h100, hval100⟩ := exactly_lit hM (n := 100) (by decide)
  obtain ⟨h0, hval0⟩ := exactly_lit hM (n := 0) (by decide)
  rw [(hM.compare_finite h _ hfin h100).2.2, (hM.compare_finite h _ hfin h0).2.1, hval100, hval0]
  norm_num

theorem clampHumidity_of_above (hfin : h.isFinite = true) (hv : 100 < h.value) : clampHumidity ar h = lit ar 100 := by
  rw [clampHumidity, if_pos ((clamp_compare hM hfin).1.2 hv)]

theorem clampHumidity_of_below (hfin : h.isFinite = true) (hv : h.value < 0) : clampHumidity ar h = lit ar 0 := by
  obtain ⟨hgt, hlt⟩ := clamp_compare hM hfin
  rw [clampHumidity, if_neg (mt hgt.1 (by linarith)), if_pos (hlt.2 hv)]

theorem clampHumidity_of_inside (hfin : h.isFinite = true) (hlow : 0 ≤ h.value) (hhigh : h.value ≤ 100) :
    clampHumidity ar h = h := by
  obtain ⟨hgt, hlt⟩ := clamp_compare hM hfin
  rw [clampHumidity, if_neg (mt hgt.1 (not_lt.2 hhigh)), if_neg (mt hlt.1 (not_lt.2 hlow))]

/-- A NaN compares false twice and passes. -/
theorem clampHumidity_of_nan (hnan : h.isNaN = true) : clampHumidity ar h = h := by
  rw [clampHumidity, (hM.compare_nan h _ hnan).2, (hM.compare_nan h _ hnan).1, if_neg Bool.false_ne_true,
    if_neg Bool.false_ne_true]

/-- An infinity is clamped on the side of its sign. -/
theorem clampHumidity_of_inf (hinf : h.isInf = true) :
    clampHumidity ar h = if h.sign then lit ar 0 else lit ar 100 := by
  have h100 := (exactly_lit hM (n := 100) (by decide)).1
  have h0 := (exactly_lit hM (n := 0) (by decide)).1
  rw [clampHumidity, (hM.compare_infinite h _ hinf h100).2, (hM.compare_infinite h _ hinf h0).1]
  cases h.sign <;> rfl

/-- What the clamp answers, for every value but a NaN, is a finite number in [0, 100]. -/
theorem clampHumidity_range (hnan : h.isNaN = false) : (clampHumidity ar h).isFinite = true ∧
    0 ≤ (clampHumidity ar h).value ∧ (clampHumidity ar h).value ≤ 100 := by
  obtain ⟨h100, hval100⟩ := exactly_lit hM (n := 100) (by decide)
  obtain ⟨h0, hval0⟩ := exactly_lit hM (n := 0) (by decide)
  have hlow : (lit ar 0).isFinite = true ∧ 0 ≤ (lit ar 0).value ∧ (lit ar 0).value ≤ 100 :=
    ⟨h0, by rw [hval0]; norm_num, by rw [hval0]; norm_num⟩
  have hhigh : (lit ar 100).isFinite = true ∧ 0 ≤ (lit ar 100).value ∧ (lit ar 100).value ≤ 100 :=
    ⟨h100, by rw [hval100]; norm_num, by rw [hval100]; norm_num⟩
  cases hinf : h.isInf with
  | true =>
    rw [clampHumidity_of_inf hM hinf]
    split
    · exact hlow
    · exact hhigh
  | false =>
    have hfin := isFinite_of_not hnan hinf
    by_cases habove : 100 < h.value
    · rwa [clampHumidity_of_above hM hfin habove]
    · by_cases hbelow : h.value < 0
      · rwa [clampHumidity_of_below hM hfin hbelow]
      · rw [clampHumidity_of_inside hM hfin (not_lt.1 hbelow) (not_lt.1 habove)]
        exact ⟨hfin, not_lt.1 hbelow, not_lt.1 habove⟩

end Sys2Proof.Machine

namespace Sys2Proof.Proofs

open Machine F64

/-- Settles O58: CMPH answers the clamped value, and the clamp does the same to every value a formula may give. -/
theorem humidityClampForAnyArithmetic : Obligations.HumidityClampForAnyArithmetic := by
  rintro ar hf adcH s hM ⟨hh, hc⟩
  have hval100 : (lit ar 100).value = 100 := (exactly_lit hM (n := 100) (by decide)).2
  have hval0 : (lit ar 0).value = 0 := (exactly_lit hM (n := 0) (by decide)).2.trans Nat.cast_zero
  refine ⟨_, compensateHumidity_of_ready ar hf adcH hh hc, clampHumidity_of_nan hM, clampHumidity_range hM,
    clampHumidity_of_inside hM, fun hfin hv => ?_, fun hfin hv => ?_, fun hinf => ?_⟩
  · rw [clampHumidity_of_above hM hfin hv, hval100]
  · rw [clampHumidity_of_below hM hfin hv, hval0]
  · rw [clampHumidity_of_inf hM hinf, apply_ite F64.value, hval100, hval0]

/-- Settles O29: the default formula's value is finite, and the clamp leaves it or puts a literal in its place. -/
theorem humidityIsClamped : Obligations.HumidityIsClamped := by
  rintro adcH s ⟨hh, hc⟩
  have hM := Binary64.ieee_monotoneExact
  have hfin := isFinite_defaultHFormula hM adcH s.calRegs.hum s.tFine
  obtain ⟨hrfin, hlow, hhigh⟩ := clampHumidity_range hM (isNaN_of_finite hfin)
  have h100 : lit .ieee 100 = ⟨0x4059000000000000#64⟩ := by decide +kernel
  have h0 : lit .ieee 0 = ⟨0x0000000000000000#64⟩ := by decide +kernel
  exact ⟨_, _, exec_cmph_of_ready adcH hh hc, rfl, hfin, hrfin, hlow, hhigh,
    fun hv => (clampHumidity_of_above hM hfin hv).trans h100, fun hv => (clampHumidity_of_below hM hfin hv).trans h0,
    clampHumidity_of_inside hM hfin⟩

end Sys2Proof.Proofs
end
